-- ==== Sys2Proof/Word.lean ====
section
/-! DEFINITION. The two widths of the machine: the 16-bit word and the 8-bit character (R8, R9). -/

namespace Sys2Proof

/-- A 16-bit unsigned value: a memory cell, a register, a stack entry, `pc`, an instruction word
(R8 `WORD_BITS`, R9: every architectural value is unsigned). -/
abbrev Word := BitVec 16

/-- A character of the output or the input port: a byte 0..255 (R8 `IN_BITS`, R190, R191). -/
abbrev Byte := BitVec 8

end Sys2Proof
end

