-- ==== Sys2Proof/Config.lean ====
section
/-! DEFINITION. What is fixed for a run: the parameters of R8, the one open parameter
`STACK_DEPTH` (R31, decision D9), and the model's one free value. -/

namespace Sys2Proof

/-- Number of memory cells, addresses 0..32767 (R8 `MEM_CELLS`, R34). -/
abbrev memCells : Nat := 32768

/-- The first operand word that names a register (R8 `REG_BASE`). -/
abbrev regBase : Nat := 32768

/-- The last operand word that names a register (R8 `REG_TOP`). -/
abbrev regTop : Nat := 32775

/-- The reduction modulus of `add` and `mult` (R8 `MODULUS`). -/
abbrev modulus : Nat := 32768

/-- The largest value `out` accepts (R8 `CHAR_MAX`, R195). -/
abbrev charMax : Nat := 255

/-- The longest instruction, in words (R80: lengths are 1, 2, 3 or 4). -/
abbrev maxLength : Nat := 4

/-- The parameter of a run that the spec leaves open (R8, R31; decision D9). -/
structure Config where
  /-- `STACK_DEPTH`: `none` is the unbounded stack, `some n` a stack of capacity `n`. -/
  stackDepth : Option Nat
  deriving DecidableEq, Repr

/-- The default of R8: `STACK_DEPTH = none`. -/
def Config.default : Config := { stackDepth := none }

/-- FREE VALUE. What `run.info` holds after `StackOverflowError(depth)` when the depth is above
65535: R210 says the information is the depth and R38 says it has 16 bits, so no rule gives the
value then (log entry 7, DESIGN CHOICE, safe). It has no body: nothing can be proved of it. -/
opaque Config.wideDepthInfo : Nat → Word

end Sys2Proof
end

