-- ==== Sys2Proof/Machine/Flags.lean ====
section
/-! DEFINITION. The machine has no flags (R41): "`eq` and `gt` write their 0 or 1 result to a general
register". This is that result. -/

namespace Sys2Proof.Machine

open Sys2Proof

/-- The result of a comparison as a word: 1 where it holds, else 0 (R41, R130, R131). -/
def truthWord (b : Bool) : Word := if b then 1 else 0

end Sys2Proof.Machine
end

