-- ==== Sys2Proof/Machine/Alu.lean ====
section
/-! DEFINITION. The eight functions of the ALU (R6, R166, R168): unsigned 16-bit inputs, one 16-bit
output, pure (R169). -/

namespace Sys2Proof.Machine

open Sys2Proof

/-- `(a + b) mod 32768`, the sum taken without a width limit (R160). -/
def aluAdd (a b : Word) : Word := BitVec.ofNat 16 ((a.toNat + b.toNat) % modulus)

/-- `(a * b) mod 32768`, the product taken without a width limit (R161). -/
def aluMult (a b : Word) : Word := BitVec.ofNat 16 ((a.toNat * b.toNat) % modulus)

/-- `a mod b` for a non-zero `b`, with no reduction (R162, R167). -/
def aluMod (a b : Word) : Word := BitVec.ofNat 16 (a.toNat % b.toNat)

/-- `a & b` over bits 15..0 (R163). -/
def aluAnd (a b : Word) : Word := a &&& b

/-- `a | b` over bits 15..0 (R164). -/
def aluOr (a b : Word) : Word := a ||| b

/-- `(~a) & 32767`: bits 14..0 inverted, bit 15 zero (R165). -/
def aluNot (a : Word) : Word := ~~~a &&& 32767#16

/-- 1 if the full 16-bit values are equal, else 0 (R130). -/
def aluEq (a b : Word) : Word := truthWord (decide (a = b))

/-- 1 if `a` is greater than `b` as unsigned numbers, else 0 (R131). -/
def aluGt (a b : Word) : Word := truthWord (decide (b.toNat < a.toNat))

end Sys2Proof.Machine
end

