-- ==== Sys2Proof/Machine/State.lean ====
section
/-! DEFINITION. The state of the machine (R44), as plain data, and its value after reset (R43). -/

namespace Sys2Proof.Machine

open Sys2Proof

/-- The cells of memory that hold something other than 0, as (address, content) pairs. The unit is
the 16-bit cell, the machine's smallest addressable unit (R12, R50, R54; log entry 1); an address
0..32767 that is not listed reads as 0 (R34, R43). -/
abbrev Memory := List (Nat × Word)

/-- Why a run ended cleanly (R35, R213). -/
inductive HaltReason where
  | haltInstruction
  | retEmptyStack
  | inputExhausted
  deriving DecidableEq, Repr

/-- The seven fault causes (R210). -/
inductive Cause where
  | decodeError
  | unknownOpcodeError
  | stackUnderflowError
  | divisionError
  | outOfRangeError
  | memoryBoundsError
  | stackOverflowError
  deriving DecidableEq, Repr

/-- The run state with its fault record (R35, R38): each kind carries the fields that are meaningful
in it and no others, so that the fields R43 calls unspecified while RUNNING cannot be read then
(log entry 8). -/
inductive Run where
  | running
  | halted (reason : HaltReason)
  | faulted (cause : Cause) (info : Word) (faultPc : Word)
  deriving DecidableEq, Repr

/-- What the environment has supplied of the input stream (R40, R191, R192; log entry 5): the bytes
that have arrived so far, from the first of the run, and whether the stream ends after them. -/
structure InputStream where
  bytes : List Byte
  ended : Bool
  deriving DecidableEq, Repr

/-- The answer of the input port to one request (R191); `waiting` while there is none (R194). -/
inductive InAnswer where
  | char (c : Byte)
  | eof
  | waiting
  deriving DecidableEq, Repr

/-- Why a step of the machine has no next state. The seven fault causes of the spec are not among
these: taking one is a next state, `run = FAULTED(..)` (R220; log entry 2). -/
inductive Fault where
  /-- Raised by the step of a machine whose run state is `HALTED(reason)`: "In HALTED(_) and in
  FAULTED(_, _) the core takes no step" (R37). Safe: nothing is claimed to happen (log entry 3). -/
  | halted (reason : HaltReason)
  /-- Raised by the step of a machine whose run state is `FAULTED(cause, info)` (R37). Safe: nothing
  is claimed to happen (log entry 3). -/
  | faulted (cause : Cause) (info : Word) (faultPc : Word)
  /-- Raised by `in` while the environment has not answered: "the core has no step and no
  architectural state changes" (R194). Safe: the step is there again once the environment has
  supplied a character or the end of the stream (log entry 4). -/
  | waitingForInput
  deriving DecidableEq, Repr

/-- Why the model gives an instruction no meaning. -/
inductive Refusal where
  /-- Raised by an arm of `exec` that has no meaning yet; safe. No arm of this model answers it. -/
  | notModelled (mnemonic : String)
  deriving DecidableEq, Repr

/-- What the status interface shows of the run state's kind (R38, R257). -/
inductive RunKind where
  | running
  | halted
  | faulted
  deriving DecidableEq, Repr

/-- What the environment reads on the status interface (R257): the fields of R38, each present when
it is meaningful. -/
structure Status where
  kind : RunKind
  reason : Option HaltReason
  cause : Option Cause
  info : Option Word
  faultPc : Option Word
  deriving DecidableEq, Repr

/-- `LoadError`, raised by the loader before the core starts and never by the core (R212, R254,
R255). -/
inductive LoadError where
  /-- "the path does not exist or is unreadable" (R254). -/
  | unreadable
  /-- The file's length in bytes is odd (R255). -/
  | oddLength
  /-- The image has more than 32768 words (R255). -/
  | tooLong
  deriving DecidableEq, Repr

/-- The state of the machine: the tuple of R44, then the two parameters of a run that a step reads
(R44: "The parameters of a run are the image, `STACK_DEPTH`, and the input oracle"). -/
structure State where
  /-- The general registers `x[0]` to `x[7]` (R20). -/
  regs : Vector Word 8
  /-- The program counter (R25). -/
  pc : Word
  /-- The stack, top first (R29). -/
  stack : List Word
  /-- The memory array (R34). -/
  mem : Memory
  /-- The run state and the fault record (R35, R38). -/
  run : Run
  /-- `out_seq`, oldest byte first (R39). -/
  outSeq : List Byte
  /-- `in_count`: how many characters have been consumed (R40). -/
  inCount : Nat
  /-- The input stream, the environment's (R40, R192). No instruction changes it. -/
  input : InputStream
  /-- The parameter `STACK_DEPTH` (R31). No instruction changes it. -/
  cfg : Config
  deriving DecidableEq, Repr

/-- The machine after reset (R43, R250) with the empty image, which R252 calls legal: nothing is
listed in memory, so every cell reads as 0. The two parameters of the run have the values that
`95_test_vectors.md` takes unless it says otherwise, an empty input that has ended and
`STACK_DEPTH = none` (log entries 5, 6 and 9). -/
def State.reset : State :=
  { regs := Vector.replicate 8 0
    pc := 0
    stack := []
    mem := []
    run := .running
    outSeq := []
    inCount := 0
    input := { bytes := [], ended := true }
    cfg := Config.default }

end Sys2Proof.Machine
end

