-- ==== Sys2Proof/Syntax.lean ====
section
/-! DEFINITION. The instructions as syntax: one constructor per row of the opcode table (R92), with
operands of the three kinds of R82. -/

namespace Sys2Proof

/-- A register index 0..7 (R20), and what a target operand (kind `T`, R87) yields. -/
abbrev Reg := Fin 8

/-- A value operand (kind `V`, R86): a literal, or a register to be dereferenced. -/
inductive Value where
  | lit (v : Word)
  | reg (i : Reg)
  deriving DecidableEq, Repr

/-- The raw destination of `in` (kind `D`, R88): `MemSlot(a)` or `RegSlot(i)`. -/
inductive Dest where
  | mem (a : Word)
  | reg (i : Reg)
  deriving DecidableEq, Repr

/-- The 22 instructions, in the order of R92. The constructor `inp` is the row `in`, a word Lean
reserves. -/
inductive Instr where
  | halt
  | set (t : Reg) (a : Value)
  | push (a : Value)
  | pop (t : Reg)
  | eq (t : Reg) (a b : Value)
  | gt (t : Reg) (a b : Value)
  | jmp (a : Value)
  | jt (a b : Value)
  | jf (a b : Value)
  | add (t : Reg) (a b : Value)
  | mult (t : Reg) (a b : Value)
  | mod (t : Reg) (a b : Value)
  | and (t : Reg) (a b : Value)
  | or (t : Reg) (a b : Value)
  | not (t : Reg) (a : Value)
  | rmem (t : Reg) (a : Value)
  | wmem (a b : Value)
  | call (a : Value)
  | ret
  | out (a : Value)
  | inp (d : Dest)
  | noop
  deriving DecidableEq, Repr

end Sys2Proof
end

