-- ==== Sys2Proof/Machine/Ops.lean ====
section
/-! DEFINITION. The named operations over the state: the primitives of R11. -/

namespace Sys2Proof.Machine

open Sys2Proof

/-! ### The memory array (R34, R52, R53, R57) -/

/-- The content of the cell at an address; 0 where nothing is listed (R34, R43). -/
def Memory.get : Memory → Nat → Word
  | [], _ => 0
  | (k, v) :: m, a => if k = a then v else Memory.get m a

/-- Take every entry of an address out of the list. -/
def Memory.erase (m : Memory) (a : Nat) : Memory := m.filter fun c => c.1 != a

/-- Put an entry before the first entry of a higher address. -/
def Memory.insert : Memory → Nat → Word → Memory
  | [], a, v => [(a, v)]
  | (k, w) :: m, a, v => if a < k then (a, v) :: (k, w) :: m else (k, w) :: Memory.insert m a v

/-- Store a value in the cell at an address, all 16 bits of it (R53), keeping the canonical form:
storing 0, what an unlisted address reads as, takes the entry out. -/
def Memory.set (m : Memory) (a : Nat) (v : Word) : Memory :=
  if v = 0 then m.erase a else (m.erase a).insert a v

/-- The canonical form: addresses strictly rise, all of them are in 0..32767, and no entry is 0. -/
abbrev Memory.wf (m : Memory) : Prop :=
  m.Pairwise (fun c d => c.1 < d.1) ∧ ∀ c ∈ m, c.1 < memCells ∧ c.2 ≠ 0

/-- The entries of the words of an image that are loaded from address `k` on (R252). -/
def Memory.fromWords (k : Nat) : List Word → Memory
  | [] => []
  | w :: ws => if w = 0 then Memory.fromWords (k + 1) ws else (k, w) :: Memory.fromWords (k + 1) ws

/-! ### Registers, `pc`, stack, memory, run state (R11) -/

/-- `x[i]` (R20). -/
def State.reg (s : State) (i : Reg) : Word := s.regs[i.val]

/-- `x[i] <- v`: all 16 bits, no reduction (R22). -/
def State.setReg (s : State) (i : Reg) (v : Word) : State := { s with regs := s.regs.set i.val v i.isLt }

/-- `pc <- target`: any 16-bit value, not checked (R27). -/
def State.setPc (s : State) (target : Word) : State := { s with pc := target }

/-- The advance of `pc` over `n` fetched words, one for each `Fetch()` (R26, R84). -/
def State.advance (s : State) (n : Nat) : State := s.setPc (s.pc + BitVec.ofNat 16 n)

/-- Replace the stack. -/
def State.setStack (s : State) (st : List Word) : State := { s with stack := st }

/-- Replace the memory array. -/
def State.setMem (s : State) (m : Memory) : State := { s with mem := m }

/-- Replace the run state. -/
def State.setRun (s : State) (r : Run) : State := { s with run := r }

/-- `MemRead(addr, 1)`: the cell, or nothing where the bounds check fails (R51, R52). -/
def State.memRead (s : State) (addr : Word) : Option Word :=
  if addr.toNat < memCells then some (s.mem.get addr.toNat) else none

/-- `MemWrite(addr, 1, v)`: the state with the cell written, or nothing where the bounds check
fails (R51, R53). -/
def State.memWrite (s : State) (addr v : Word) : Option State :=
  if addr.toNat < memCells then some (s.setMem (s.mem.set addr.toNat v)) else none

/-- `Push(v)`: the state with the entry on top, or nothing where `STACK_DEPTH` is `some n` and the
depth is `n` (R31). -/
def State.push (s : State) (v : Word) : Option State :=
  if s.cfg.stackDepth = some s.stack.length then none else some (s.setStack (v :: s.stack))

/-- The depth as the 16-bit information of `StackOverflowError` (R210); for a depth that 16 bits do
not hold, the free value (log entry 7). -/
def State.depthInfo (s : State) : Word :=
  if s.stack.length < 2 ^ 16 then BitVec.ofNat 16 s.stack.length
  else Config.wideDepthInfo s.stack.length

/-! ### The character ports (R190, R191) -/

/-- `OutChar(c)`: `out_seq <- out_seq ++ [c]` (R190). -/
def State.emit (s : State) (c : Byte) : State := { s with outSeq := s.outSeq ++ [c] }

/-- `InChar()`: the answer to the next request is the byte after those consumed so far, `eof` after
the last byte of a stream that has ended, and otherwise still awaited (R191, R192, R194). -/
def State.inChar (s : State) : InAnswer :=
  match s.input.bytes[s.inCount]? with
  | some c => .char c
  | none => if s.input.ended then .eof else .waiting

/-- `in_count <- in_count + 1` (R40, R196). -/
def State.consume (s : State) : State := { s with inCount := s.inCount + 1 }

/-! ### Taking a fault, and ending cleanly (R36, R220) -/

/-- `raise E(info)` in the step that began at opcode address `A`, the one operation by which every
fault is taken: `run <- FAULTED(E, info)` with `run.fault_pc <- A`, and nothing else changes; `pc`
keeps the advances of the fetches that succeeded (R220). There is no handler and no way back but
reset (R221, R222). -/
def State.raise (s : State) (e : Cause) (info A : Word) : State := s.setRun (.faulted e info A)

/-- `halt(reason)`: `run <- HALTED(reason)`, and nothing else changes (R36). -/
def State.haltFor (s : State) (reason : HaltReason) : State := s.setRun (.halted reason)

/-- A fault of `Execute` in an instruction of `n` words whose opcode word is at `pc`: all of its
words have been fetched, so `pc` is left at `A + n` and `fault_pc` is `A` (R220). -/
def State.fail (s : State) (n : Nat) (e : Cause) (info : Word) : State :=
  (s.advance n).raise e info s.pc

/-- The end of an instruction of `n` words that writes one register and falls through (R26, R22). -/
def State.writeBack (s : State) (n : Nat) (t : Reg) (v : Word) : State := (s.advance n).setReg t v

end Sys2Proof.Machine
end

