-- ==== Sys2Proof/Machine/Operands.lean ====
section
/-! DEFINITION. The operand kinds of R82 against the state: what a value operand yields and what a
write to the destination of `in` does. A target operand yields its index alone (R87). -/

namespace Sys2Proof.Machine

open Sys2Proof

/-- What `Value(w)` yields: the literal itself, or all 16 bits of the register, one level deep: the
content is never looked up again nor range-checked (R86, R91). -/
def State.value (s : State) : Value → Word
  | .lit v => v
  | .reg i => s.reg i

/-- Write to the slot that `Dest(w)` names: a register, or a memory cell through `MemWrite` (R88,
R196). Nothing where the bounds check fails, which no encodable destination reaches. -/
def State.writeSlot (s : State) (d : Dest) (v : Word) : Option State :=
  match d with
  | .reg i => some (s.setReg i v)
  | .mem a => s.memWrite a v

end Sys2Proof.Machine
end

