-- ==== Sys2Proof/Machine/Arith.lean ====
section
/-! DEFINITION. Meanings of `add`, `mult`, `mod`, `and`, `or` and `not` (44_arithmetic_logic.md). Every meaning takes the state whose `pc` is
the address `A` of the opcode word and leaves `pc` past the instruction unless it redirects (R85,
R26; log entry 10). -/

namespace Sys2Proof.Machine

open Sys2Proof

/-- `add`: `x[t] <- (a + b) mod 32768` (R160). -/
def execAdd (t : Reg) (a b : Value) (s : State) : Host.Outcome State Fault Refusal :=
  .next (s.writeBack 4 t (aluAdd (s.value a) (s.value b)))

/-- `mult`: `x[t] <- (a * b) mod 32768` (R161). -/
def execMult (t : Reg) (a b : Value) (s : State) : Host.Outcome State Fault Refusal :=
  .next (s.writeBack 4 t (aluMult (s.value a) (s.value b)))

/-- `mod`: `x[t] <- a mod b`, or `DivisionError(a)` where `b` is 0 (R162). -/
def execMod (t : Reg) (a b : Value) (s : State) : Host.Outcome State Fault Refusal :=
  if s.value b = 0 then .next (s.fail 4 .divisionError (s.value a))
  else .next (s.writeBack 4 t (aluMod (s.value a) (s.value b)))

/-- `and`: `x[t] <- a & b` (R163). -/
def execAnd (t : Reg) (a b : Value) (s : State) : Host.Outcome State Fault Refusal :=
  .next (s.writeBack 4 t (aluAnd (s.value a) (s.value b)))

/-- `or`: `x[t] <- a | b` (R164). -/
def execOr (t : Reg) (a b : Value) (s : State) : Host.Outcome State Fault Refusal :=
  .next (s.writeBack 4 t (aluOr (s.value a) (s.value b)))

/-- `not`: `x[t] <- (~a) & 32767` (R165). -/
def execNot (t : Reg) (a : Value) (s : State) : Host.Outcome State Fault Refusal :=
  .next (s.writeBack 3 t (aluNot (s.value a)))

end Sys2Proof.Machine
end

