-- ==== Sys2Proof/Machine/Compare.lean ====
section
/-! DEFINITION. Meanings of `eq` and `gt` (42_compare.md). Every meaning takes the state whose `pc` is
the address `A` of the opcode word and leaves `pc` past the instruction unless it redirects (R85,
R26; log entry 10). -/

namespace Sys2Proof.Machine

open Sys2Proof

/-- `eq`: 1 if `a == b` else 0, on the full 16-bit values (R130). -/
def execEq (t : Reg) (a b : Value) (s : State) : Host.Outcome State Fault Refusal :=
  .next (s.writeBack 4 t (aluEq (s.value a) (s.value b)))

/-- `gt`: 1 if `a > b` else 0, unsigned (R131). -/
def execGt (t : Reg) (a b : Value) (s : State) : Host.Outcome State Fault Refusal :=
  .next (s.writeBack 4 t (aluGt (s.value a) (s.value b)))

end Sys2Proof.Machine
end

