-- ==== Sys2Proof/Machine/Control.lean ====
section
/-! DEFINITION. Meanings of `jmp`, `jt`, `jf`, `call` and `ret` (43_control_transfer.md). Every
meaning takes the state whose `pc` is the address `A` of the opcode word and leaves `pc` past the
instruction unless it redirects (R85, R26; log entry 10). -/

namespace Sys2Proof.Machine

open Sys2Proof

/-- `jmp`: `pc <- a`, not checked (R140, R27). -/
def execJmp (a : Value) (s : State) : Host.Outcome State Fault Refusal :=
  .next ((s.advance 2).setPc (s.value a))

/-- `jt`: `pc <- b` if `a != 0` (R142). -/
def execJt (a b : Value) (s : State) : Host.Outcome State Fault Refusal :=
  if s.value a ≠ 0 then .next ((s.advance 3).setPc (s.value b)) else .next (s.advance 3)

/-- `jf`: `pc <- b` if `a == 0` (R144). -/
def execJf (a b : Value) (s : State) : Host.Outcome State Fault Refusal :=
  if s.value a = 0 then .next ((s.advance 3).setPc (s.value b)) else .next (s.advance 3)

/-- `call`: `Push(pc)` with `pc = A + 2`, then `pc <- a`; where the stack is full,
`StackOverflowError(depth)` and no redirect (R148, R31). -/
def execCall (a : Value) (s : State) : Host.Outcome State Fault Refusal :=
  match (s.advance 2).push (s.advance 2).pc with
  | some s' => .next (s'.setPc (s.value a))
  | none => .next (s.fail 2 .stackOverflowError s.depthInfo)

/-- `ret`: `pc <- Pop()`, the raw entry; on an empty stack the clean end
`HALTED(ret_empty_stack)` with `pc` at `A + 1` (R150, R36). -/
def execRet (s : State) : Host.Outcome State Fault Refusal :=
  match s.stack with
  | [] => .next ((s.advance 1).haltFor .retEmptyStack)
  | v :: rest => .next (((s.advance 1).setStack rest).setPc v)

end Sys2Proof.Machine
end

