-- ==== Sys2Proof/Machine/DataMovement.lean ====
section
/-! DEFINITION. Meanings of `set`, `push` and `pop` (41_data_movement_stack.md). Every meaning takes the state whose `pc` is
the address `A` of the opcode word and leaves `pc` past the instruction unless it redirects (R85,
R26; log entry 10). -/

namespace Sys2Proof.Machine

open Sys2Proof

/-- `set`: `x[t] <- a`, all 16 bits (R120). -/
def execSet (t : Reg) (a : Value) (s : State) : Host.Outcome State Fault Refusal :=
  .next (s.writeBack 3 t (s.value a))

/-- `push`: `Push(a)`, or `StackOverflowError(depth)` where the stack is full (R124, R31). -/
def execPush (a : Value) (s : State) : Host.Outcome State Fault Refusal :=
  match (s.advance 2).push (s.value a) with
  | some s' => .next s'
  | none => .next (s.fail 2 .stackOverflowError s.depthInfo)

/-- `pop`: `x[t] <- Pop()`, or `StackUnderflowError(0)` where the stack is empty (R126, R32). -/
def execPop (t : Reg) (s : State) : Host.Outcome State Fault Refusal :=
  match s.stack with
  | [] => .next (s.fail 2 .stackUnderflowError 0)
  | v :: rest => .next ((s.setStack rest).writeBack 2 t v)

end Sys2Proof.Machine
end

