-- ==== Sys2Proof/WellFormed.lean ====
section
/-! DEFINITION. Which instruction terms the encoding can express: a literal and the memory address
of `in` are in 0..32767 (R86, R88, R97); the register indices are in range by their type. -/

namespace Sys2Proof

/-- A literal is at most 32767: "a literal cannot express a value above 32767" (R97). -/
def Value.wf : Value → Bool
  | .lit v => decide (v.toNat < regBase)
  | .reg _ => true

/-- A memory destination is a valid address, 0..32767 (R88, R51). -/
def Dest.wf : Dest → Bool
  | .mem a => decide (a.toNat < memCells)
  | .reg _ => true

/-- Every operand of the instruction can be encoded. -/
def Instr.wf : Instr → Bool
  | .halt | .ret | .noop | .pop _ => true
  | .set _ a | .not _ a | .rmem _ a => a.wf
  | .push a | .jmp a | .call a | .out a => a.wf
  | .jt a b | .jf a b | .wmem a b => a.wf && b.wf
  | .eq _ a b | .gt _ a b | .add _ a b | .mult _ a b | .mod _ a b | .and _ a b | .or _ a b =>
    a.wf && b.wf
  | .inp d => d.wf

end Sys2Proof
end

