-- ==== Sys2Proof/Decode.lean ====
section
/-! DEFINITION. The decoder, total on any list of words and rejecting by name, and after it the
encoder, both from R80 to R98. The decoder consumes one word at a time, left to right, and checks
each word before it looks at the next (R85, R89). -/

namespace Sys2Proof

/-- Why a list of words is no instruction. Each reason carries what the fault it stands for needs
(R214): how many words were consumed follows from it. -/
inductive Reject where
  /-- There is no word `n` (counted from 0): words `0 .. n-1` were consumed (R84, R96). -/
  | truncated (n : Nat)
  /-- Word 0 is `op`, which is above 21 (R93). One word was consumed. -/
  | unknownOpcode (op : Word)
  /-- Operand `n` (counted from 1) is the word `w`, which its kind does not accept (R94). `1 + n`
  words were consumed. -/
  | badOperand (n : Nat) (w : Word)
  deriving DecidableEq, Repr

/-- `Value(w)` as far as it looks at the word alone (R86): which literal or which register. -/
def decodeValue (w : Word) : Option Value :=
  if w.toNat < regBase then some (.lit w)
  else if h : w.toNat - regBase < 8 then some (.reg ⟨w.toNat - regBase, h⟩)
  else none

/-- `Target(w)` (R87): a register index; a literal is refused. -/
def decodeTarget (w : Word) : Option Reg :=
  if w.toNat < regBase then none
  else if h : w.toNat - regBase < 8 then some ⟨w.toNat - regBase, h⟩
  else none

/-- `Dest(w)` (R88): a memory cell, a register, or nothing. -/
def decodeDest (w : Word) : Option Dest :=
  if w.toNat < memCells then some (.mem w)
  else if h : w.toNat - regBase < 8 then some (.reg ⟨w.toNat - regBase, h⟩)
  else none

/-- Take operand `n` from the stream: the fetch can find no word, the check can refuse the word it
finds, and only then does the decoder go on to the words after it (R89). -/
def takeOperand {α : Type} (kind : Word → Option α) (n : Nat) :
    List Word → Except Reject (α × List Word)
  | [] => .error (.truncated n)
  | w :: ws =>
    match kind w with
    | some x => .ok (x, ws)
    | none => .error (.badOperand n w)

/-- Format `N` (R83): the opcode word alone. -/
def formatN (i : Instr) (ws : List Word) : Except Reject (Instr × List Word) := .ok (i, ws)

/-- Format `V` (R83). -/
def formatV (mk : Value → Instr) (ws : List Word) : Except Reject (Instr × List Word) :=
  match takeOperand decodeValue 1 ws with
  | .error e => .error e
  | .ok (a, ws) => .ok (mk a, ws)

/-- Format `T` (R83). -/
def formatT (mk : Reg → Instr) (ws : List Word) : Except Reject (Instr × List Word) :=
  match takeOperand decodeTarget 1 ws with
  | .error e => .error e
  | .ok (t, ws) => .ok (mk t, ws)

/-- Format `D` (R83). -/
def formatD (mk : Dest → Instr) (ws : List Word) : Except Reject (Instr × List Word) :=
  match takeOperand decodeDest 1 ws with
  | .error e => .error e
  | .ok (d, ws) => .ok (mk d, ws)

/-- Format `TV` (R83). -/
def formatTV (mk : Reg → Value → Instr) (ws : List Word) : Except Reject (Instr × List Word) :=
  match takeOperand decodeTarget 1 ws with
  | .error e => .error e
  | .ok (t, ws) =>
    match takeOperand decodeValue 2 ws with
    | .error e => .error e
    | .ok (a, ws) => .ok (mk t a, ws)

/-- Format `VV` (R83). -/
def formatVV (mk : Value → Value → Instr) (ws : List Word) : Except Reject (Instr × List Word) :=
  match takeOperand decodeValue 1 ws with
  | .error e => .error e
  | .ok (a, ws) =>
    match takeOperand decodeValue 2 ws with
    | .error e => .error e
    | .ok (b, ws) => .ok (mk a b, ws)

/-- Format `TVV` (R83). -/
def formatTVV (mk : Reg → Value → Value → Instr) (ws : List Word) :
    Except Reject (Instr × List Word) :=
  match takeOperand decodeTarget 1 ws with
  | .error e => .error e
  | .ok (t, ws) =>
    match takeOperand decodeValue 2 ws with
    | .error e => .error e
    | .ok (a, ws) =>
      match takeOperand decodeValue 3 ws with
      | .error e => .error e
      | .ok (b, ws) => .ok (mk t a b, ws)

/-- The operands of the opcode word `op`, by the opcode map of R92; the word is compared raw, all
16 bits of it (R81), and every number above 21 is refused before any operand is looked at (R93). -/
def decodeOperands (op : Word) (ws : List Word) : Except Reject (Instr × List Word) :=
  match op.toNat with
  | 0 => formatN .halt ws
  | 1 => formatTV .set ws
  | 2 => formatV .push ws
  | 3 => formatT .pop ws
  | 4 => formatTVV .eq ws
  | 5 => formatTVV .gt ws
  | 6 => formatV .jmp ws
  | 7 => formatVV .jt ws
  | 8 => formatVV .jf ws
  | 9 => formatTVV .add ws
  | 10 => formatTVV .mult ws
  | 11 => formatTVV .mod ws
  | 12 => formatTVV .and ws
  | 13 => formatTVV .or ws
  | 14 => formatTV .not ws
  | 15 => formatTV .rmem ws
  | 16 => formatVV .wmem ws
  | 17 => formatV .call ws
  | 18 => formatN .ret ws
  | 19 => formatV .out ws
  | 20 => formatD .inp ws
  | 21 => formatN .noop ws
  | _ => .error (.unknownOpcode op)

/-- The instruction at the head of a list of words, with the words after it (R80, R85). -/
def decode : List Word → Except Reject (Instr × List Word)
  | [] => .error (.truncated 0)
  | op :: ws => decodeOperands op ws

/-- The word that names register `i`: `32768 + i` (R20). -/
def encodeReg (i : Reg) : Word := BitVec.ofNat 16 (regBase + i.val)

/-- The word of a value operand (R86). -/
def encodeValue : Value → Word
  | .lit v => v
  | .reg i => encodeReg i

/-- The word of the destination of `in` (R88). -/
def encodeDest : Dest → Word
  | .mem a => a
  | .reg i => encodeReg i

/-- The words of an instruction: the opcode word of R92, then the operand words of its format in
order (R80, R83). -/
def encode : Instr → List Word
  | .halt => [0]
  | .set t a => [1, encodeReg t, encodeValue a]
  | .push a => [2, encodeValue a]
  | .pop t => [3, encodeReg t]
  | .eq t a b => [4, encodeReg t, encodeValue a, encodeValue b]
  | .gt t a b => [5, encodeReg t, encodeValue a, encodeValue b]
  | .jmp a => [6, encodeValue a]
  | .jt a b => [7, encodeValue a, encodeValue b]
  | .jf a b => [8, encodeValue a, encodeValue b]
  | .add t a b => [9, encodeReg t, encodeValue a, encodeValue b]
  | .mult t a b => [10, encodeReg t, encodeValue a, encodeValue b]
  | .mod t a b => [11, encodeReg t, encodeValue a, encodeValue b]
  | .and t a b => [12, encodeReg t, encodeValue a, encodeValue b]
  | .or t a b => [13, encodeReg t, encodeValue a, encodeValue b]
  | .not t a => [14, encodeReg t, encodeValue a]
  | .rmem t a => [15, encodeReg t, encodeValue a]
  | .wmem a b => [16, encodeValue a, encodeValue b]
  | .call a => [17, encodeValue a]
  | .ret => [18]
  | .out a => [19, encodeValue a]
  | .inp d => [20, encodeDest d]
  | .noop => [21]

/-- The number `w` of an instruction's bits as words, as `opcode_table.json` numbers them: word `k`
is bits `16k+15 .. 16k`; bits from `nbits` on are 0, up to the longest instruction (R80). -/
def tableWords (nbits w : Nat) : List Word :=
  (List.range maxLength).map fun k => BitVec.ofNat 16 (w % 2 ^ nbits / 2 ^ (16 * k))

/-- What the decoder reads from an instruction whose bits are `w`. -/
def decodeTableWord (nbits w : Nat) : Option Instr :=
  match decode (tableWords nbits w) with
  | .ok (i, _) => some i
  | .error _ => none

end Sys2Proof
end

