-- ==== Sys2Proof/Machine/InOut.lean ====
section
/-! DEFINITION. Meanings of `out` and `in` (46_io.md). Every meaning takes the state whose `pc` is
the address `A` of the opcode word and leaves `pc` past the instruction unless it redirects (R85,
R26; log entry 10). -/

namespace Sys2Proof.Machine

open Sys2Proof

/-- `out`: `OutChar(a[7:0])`, or `OutOfRangeError(a)` where the resolved value is above 255 (R195). -/
def execOut (a : Value) (s : State) : Host.Outcome State Fault Refusal :=
  if charMax < (s.value a).toNat then .next (s.fail 2 .outOfRangeError (s.value a))
  else .next ((s.advance 2).emit ((s.value a).setWidth 8))

/-- `in`: ask for a character; write it, zero-extended, to the slot and count it; at the end of the
stream end the run cleanly; while there is no answer there is no step (R194, R196). The bounds
check of the memory slot cannot fail for a destination the decoder yields. -/
def execIn (d : Dest) (s : State) : Host.Outcome State Fault Refusal :=
  match s.inChar with
  | .waiting => .fault .waitingForInput
  | .eof => .next ((s.advance 2).haltFor .inputExhausted)
  | .char c =>
    match (s.advance 2).writeSlot d (c.setWidth 16) with
    | some s' => .next s'.consume
    | none => .next (s.fail 2 .memoryBoundsError (encodeDest d))

end Sys2Proof.Machine
end

