-- ==== Sys2Proof/Machine/MemoryAccess.lean ====
section
/-! DEFINITION. Meanings of `rmem` and `wmem` (45_memory_access.md). Every meaning takes the state whose `pc` is
the address `A` of the opcode word and leaves `pc` past the instruction unless it redirects (R85,
R26; log entry 10). -/

namespace Sys2Proof.Machine

open Sys2Proof

/-- `rmem`: `x[t] <- MemRead(a, 1)`, or `MemoryBoundsError(a)` where `a` is above 32767 (R180). -/
def execRmem (t : Reg) (a : Value) (s : State) : Host.Outcome State Fault Refusal :=
  match s.memRead (s.value a) with
  | some v => .next (s.writeBack 3 t v)
  | none => .next (s.fail 3 .memoryBoundsError (s.value a))

/-- `wmem`: `MemWrite(a, 1, b)`, or `MemoryBoundsError(a)` where `a` is above 32767 (R181). -/
def execWmem (a b : Value) (s : State) : Host.Outcome State Fault Refusal :=
  match (s.advance 3).memWrite (s.value a) (s.value b) with
  | some s' => .next s'
  | none => .next (s.fail 3 .memoryBoundsError (s.value a))

end Sys2Proof.Machine
end

