-- ==== Sys2Proof/Machine/System.lean ====
section
/-! DEFINITION. Meanings of `halt` and `noop` (40_system_halt_noop.md). Every meaning takes the state whose `pc` is
the address `A` of the opcode word and leaves `pc` past the instruction unless it redirects (R85,
R26; log entry 10). -/

namespace Sys2Proof.Machine

open Sys2Proof

/-- `halt`: `run <- HALTED(halt_instruction)`; `pc` is left at `A + 1` (R110, R36). -/
def execHalt (s : State) : Host.Outcome State Fault Refusal :=
  .next ((s.advance 1).haltFor .haltInstruction)

/-- `noop`: no effect but the advance of `pc` (R111). -/
def execNoop (s : State) : Host.Outcome State Fault Refusal := .next (s.advance 1)

end Sys2Proof.Machine
end

