-- ==== Sys2Proof/Machine/Dispatch.lean ====
section
/-! DEFINITION. `Execute` of R85: one arm per instruction of R92. -/

namespace Sys2Proof.Machine

open Sys2Proof

def exec (i : Instr) (s : State) : Host.Outcome State Fault Refusal :=
  match i with
  | .halt => Sys2Proof.Machine.execHalt s
  | .set t a => Sys2Proof.Machine.execSet t a s
  | .push a => Sys2Proof.Machine.execPush a s
  | .pop t => Sys2Proof.Machine.execPop t s
  | .eq t a b => Sys2Proof.Machine.execEq t a b s
  | .gt t a b => Sys2Proof.Machine.execGt t a b s
  | .jmp a => Sys2Proof.Machine.execJmp a s
  | .jt a b => Sys2Proof.Machine.execJt a b s
  | .jf a b => Sys2Proof.Machine.execJf a b s
  | .add t a b => Sys2Proof.Machine.execAdd t a b s
  | .mult t a b => Sys2Proof.Machine.execMult t a b s
  | .mod t a b => Sys2Proof.Machine.execMod t a b s
  | .and t a b => Sys2Proof.Machine.execAnd t a b s
  | .or t a b => Sys2Proof.Machine.execOr t a b s
  | .not t a => Sys2Proof.Machine.execNot t a s
  | .rmem t a => Sys2Proof.Machine.execRmem t a s
  | .wmem a b => Sys2Proof.Machine.execWmem a b s
  | .call a => Sys2Proof.Machine.execCall a s
  | .ret => Sys2Proof.Machine.execRet s
  | .out a => Sys2Proof.Machine.execOut a s
  | .inp d => Sys2Proof.Machine.execIn d s
  | .noop => Sys2Proof.Machine.execNoop s

end Sys2Proof.Machine
end

