-- ==== Sys2Proof/Machine/Fetch.lean ====
section
/-! DEFINITION. The fetch unit: which words the decoder can take from memory at `pc`, and the fault
each of its rejections stands for (R84, R89, R93, R94, R214). -/

namespace Sys2Proof.Machine

open Sys2Proof

/-- The words that up to `n` fetches from address `a` on would read: a fetch at an address above
32767 reads nothing (R84, R28). -/
def Memory.wordsFrom (m : Memory) : Nat → Nat → List Word
  | 0, _ => []
  | n + 1, a => if a < memCells then m.get a :: Memory.wordsFrom m n (a + 1) else []

/-- The words an instruction at `pc` can have (R80: at most four). Reading them ahead of the checks
changes nothing, since a read changes no state (R52; log entry 11). -/
def State.window (s : State) : List Word := s.mem.wordsFrom maxLength s.pc.toNat

/-- The fault taken where the words at `pc` are no instruction (R214, steps 1 to 3): `pc` is left
after the last word fetched, and `fault_pc` is the address of the opcode word (R220). -/
def State.raiseReject (s : State) : Reject → State
  | .truncated n => (s.advance n).raise .memoryBoundsError (s.advance n).pc s.pc
  | .unknownOpcode op => (s.advance 1).raise .unknownOpcodeError op s.pc
  | .badOperand n w => (s.advance (1 + n)).raise .decodeError w s.pc

/-- Store words in the cells from address `a` on, as far as there are cells. -/
def Memory.place (m : Memory) (a : Nat) : List Word → Memory
  | [] => m
  | w :: ws => if a < memCells then Memory.place (m.set a w) (a + 1) ws else m

end Sys2Proof.Machine
end

