-- ==== Sys2Proof/Machine/Step.lean ====
section
/-! DEFINITION. The instruction cycle `Step()` of R85. -/

namespace Sys2Proof.Machine

open Sys2Proof

/-- One instruction cycle (R85), defined only while `run == RUNNING`: a machine that has HALTED or
FAULTED takes no step (R37). -/
def step (s : State) : Host.Outcome State Fault Refusal :=
  match s.run with
  | .halted reason => .fault (.halted reason)
  | .faulted e info A => .fault (.faulted e info A)
  | .running =>
    match decode s.window with
    | .ok (i, _) => exec i s
    | .error r => .next (s.raiseReject r)

/-- `s` with the instruction whose bits are `w` stored where `step` fetches its next one, at `pc`,
and RUNNING, which the fetch needs (log entry 9). -/
def State.withFetchWord (s : State) (nbits w : Nat) : State :=
  (s.setMem (s.mem.place s.pc.toNat (tableWords nbits w))).setRun .running

end Sys2Proof.Machine
end

