-- ==== Sys2Proof/Machine/Environment.lean ====
section
/-! DEFINITION. What the environment does (R258): it loads an image at reset, supplies the input and
reads the status. It has no other access while the core runs (R66). -/

namespace Sys2Proof.Machine

open Sys2Proof

/-- The bytes of an image file as little-endian 16-bit words: word `k` is
`byte[2k] + 256 * byte[2k+1]` (R56, R253); nothing for an odd number of bytes (R255). -/
def wordsOfBytes : List Byte → Option (List Word)
  | [] => some []
  | [_] => none
  | lo :: hi :: rest =>
    match wordsOfBytes rest with
    | some ws => some (BitVec.ofNat 16 (lo.toNat + 256 * hi.toNat) :: ws)
    | none => none

/-- The loader's contract (R253 to R255): the image of a file's bytes, or `LoadError`; there are no
bytes where the file cannot be read. -/
def loadImage : Option (List Byte) → Except LoadError (List Word)
  | none => .error .unreadable
  | some bs =>
    match wordsOfBytes bs with
    | none => .error .oddLength
    | some ws => if ws.length ≤ memCells then .ok ws else .error .tooLong

/-- Reset with an image, an input stream and a `STACK_DEPTH`, the three parameters of a run (R44,
R250, R252): the image from address 0 on and zeros after it, every other piece of state at its
value of R43. Nothing of an earlier state is kept (R251). -/
def State.resetWith (img : List Word) (input : InputStream) (cfg : Config) : State :=
  { State.reset with mem := Memory.fromWords 0 img, input := input, cfg := cfg }

/-- Construction followed by `load` (R250, R254): where the loader fails the core does not start. -/
def State.boot (file : Option (List Byte)) (input : InputStream) (cfg : Config) :
    Except LoadError State :=
  match loadImage file with
  | .ok img => .ok (State.resetWith img input cfg)
  | .error e => .error e

/-- The environment supplies the next byte of the input stream (R191, R194). A stream that has ended
has no next byte. -/
def State.supply (s : State) (c : Byte) : State :=
  if s.input.ended then s else { s with input := { s.input with bytes := s.input.bytes ++ [c] } }

/-- The environment ends the input stream (R191 `eof`). -/
def State.endInput (s : State) : State := { s with input := { s.input with ended := true } }

/-- The status interface: a read of `run` by the environment (R38, R257). -/
def State.status (s : State) : Status :=
  match s.run with
  | .running => { kind := .running, reason := none, cause := none, info := none, faultPc := none }
  | .halted r => { kind := .halted, reason := some r, cause := none, info := none, faultPc := none }
  | .faulted e info A =>
    { kind := .faulted, reason := none, cause := some e, info := some info, faultPc := some A }

/-- The number of a fault cause in a hardware cause register (R211). -/
def Cause.code : Cause → Nat
  | .decodeError => 1
  | .unknownOpcodeError => 2
  | .stackUnderflowError => 3
  | .divisionError => 4
  | .outOfRangeError => 5
  | .memoryBoundsError => 6
  | .stackOverflowError => 7

/-- The number of `LoadError` (R211): one code for every way the loader fails. -/
def LoadError.code : LoadError → Nat
  | .unreadable => 0
  | .oddLength => 0
  | .tooLong => 0

end Sys2Proof.Machine
end

