-- ==== Sys2Proof/Safety.lean ====
section
/-! DEFINITION. The terms in which claims are made: a run's end, the invariant of the model, what an
instruction leaves unchanged, and the spec's own lists of which instruction may touch what. -/

namespace Sys2Proof.Machine

open Sys2Proof

/-- The run has ended: HALTED or FAULTED (R264). -/
def State.ended (s : State) : Prop := s.run ≠ .running

/-- The run ended well: "A model's notion of a good final state is `run.kind == HALTED`" (R213). -/
def State.endedWell (s : State) : Prop := ∃ reason, s.run = .halted reason

/-- The invariant of the model: memory is in its canonical form (one list for each content of the
32768 cells, R34), the stack is within `STACK_DEPTH` (R31), and no more characters have been
consumed than the environment has supplied (R191, R192). -/
structure State.Inv (s : State) : Prop where
  mem : s.mem.wf
  stack : ∀ n, s.cfg.stackDepth = some n → s.stack.length ≤ n
  input : s.inCount ≤ s.input.bytes.length

/-- Every register but the listed ones and every memory cell but the listed ones reads in `t` as in
`s`, and the parameters of the run are the same. -/
structure KeepsBut (regs : List Reg) (cells : List Nat) (s t : State) : Prop where
  regs : ∀ j, j ∉ regs → t.reg j = s.reg j
  mem : ∀ a, a ∉ cells → t.mem.get a = s.mem.get a
  input : t.input = s.input
  cfg : t.cfg = s.cfg

/-- The data state of R220 is in `t` as in `s`: registers, memory, stack, `out_seq`, `in_count`. -/
structure KeepsData (s t : State) : Prop where
  rest : KeepsBut [] [] s t
  stack : t.stack = s.stack
  outSeq : t.outSeq = s.outSeq
  inCount : t.inCount = s.inCount

/-- An instruction of `n` words that falls through has written register `r` and nothing else but the
advance of `pc` (R26): every other register, every cell, the stack, the run state and the two
character streams are in `t` as in `s`. -/
structure OnlyWritesReg (r : Reg) (n : Nat) (s t : State) : Prop where
  pc : t.pc = s.pc + BitVec.ofNat 16 n
  rest : KeepsBut [r] [] s t
  stack : t.stack = s.stack
  run : t.run = s.run
  outSeq : t.outSeq = s.outSeq
  inCount : t.inCount = s.inCount

/-- The register an instruction writes, by the list of R21. -/
def targetReg : Instr → Option Reg
  | .set t _ | .pop t | .eq t _ _ | .gt t _ _ | .add t _ _ | .mult t _ _ | .mod t _ _ => some t
  | .and t _ _ | .or t _ _ | .not t _ | .rmem t _ => some t
  | .inp (.reg i) => some i
  | .inp (.mem _) => none
  | .halt | .push _ | .jmp _ | .jt _ _ | .jf _ _ | .wmem _ _ | .call _ | .ret | .out _ | .noop => none

/-- The memory address an instruction stores to, by the list of R50: the resolved first operand of
`wmem`, and the raw destination of `in`. -/
def storeAddress (s : State) : Instr → Option Word
  | .wmem a _ => some (s.value a)
  | .inp (.mem a) => some a
  | .inp (.reg _) => none
  | .halt | .set _ _ | .push _ | .pop _ | .eq _ _ _ | .gt _ _ _ | .jmp _ | .jt _ _ | .jf _ _ => none
  | .add _ _ _ | .mult _ _ _ | .mod _ _ _ | .and _ _ _ | .or _ _ _ | .not _ _ | .rmem _ _ => none
  | .call _ | .ret | .out _ | .noop => none

/-- The target an instruction loads into `pc`, by the list of R27: `jmp` always, `jt` and `jf` when
their condition holds, `call`, and `ret` when the stack is not empty. -/
def redirect (s : State) : Instr → Option Word
  | .jmp a => some (s.value a)
  | .jt a b => if s.value a ≠ 0 then some (s.value b) else none
  | .jf a b => if s.value a = 0 then some (s.value b) else none
  | .call a => some (s.value a)
  | .ret => s.stack.head?
  | .halt | .set _ _ | .push _ | .pop _ | .eq _ _ _ | .gt _ _ _ | .add _ _ _ | .mult _ _ _ => none
  | .mod _ _ _ | .and _ _ _ | .or _ _ _ | .not _ _ | .rmem _ _ | .wmem _ _ | .out _ => none
  | .inp _ | .noop => none

/-- The three operand kinds of R82. -/
inductive Kind where
  | V
  | T
  | D
  deriving DecidableEq, Repr

/-- The raw words a kind accepts (the column "Accepts raw word" of R82). -/
def Kind.accepts : Kind → Word → Bool
  | .V, w => decide (w.toNat ≤ 32775)
  | .T, w => decide (32768 ≤ w.toNat ∧ w.toNat ≤ 32775)
  | .D, w => decide (w.toNat ≤ 32775)

/-- The operand kinds of each opcode word, row by row from the tables of R83 and R92. -/
def opcodeRows : List (List Kind) :=
  [[], [.T, .V], [.V], [.T], [.T, .V, .V], [.T, .V, .V], [.V], [.V, .V], [.V, .V], [.T, .V, .V],
    [.T, .V, .V]] ++
  [[.T, .V, .V], [.T, .V, .V], [.T, .V, .V], [.T, .V], [.T, .V], [.V, .V], [.V], [], [.V], [.D], []]

end Sys2Proof.Machine
end

