-- ==== Sys2Proof/Certificates/Slice0/Obligations.lean ====
section
/-! DEFINITION. The statements for the provers. Each says which rules of the spec it formalises; what
rests on a decision of the spec (D<n> of 92_eei_decisions.md) or on a log entry of the model says
so. -/

open Sys2Proof Sys2Proof.Machine

/-! ### Reset and the loader -/

/-- R250: the state after reset, for every image that meets R252, every input and every
`STACK_DEPTH`: registers 0, `pc` 0, an empty stack, the cells the image covers and zero in the
others, RUNNING, no output, nothing consumed. The last row of R43's table, the fields of `run` that
are unspecified in RUNNING, gives no value; the state has no such fields then (log entry 8). -/
def Obligations.ResetGivesTheTableOfInitialValues : Prop :=
  ∀ (img : List Word) (input : InputStream) (cfg : Config), img.length ≤ memCells →
    (∀ i, (State.resetWith img input cfg).reg i = 0) ∧
    (State.resetWith img input cfg).pc = 0 ∧
    (State.resetWith img input cfg).stack = [] ∧
    (∀ a (h : a < img.length), (State.resetWith img input cfg).mem.get a = img[a]) ∧
    (∀ a, img.length ≤ a → (State.resetWith img input cfg).mem.get a = 0) ∧
    (State.resetWith img input cfg).run = .running ∧
    (State.resetWith img input cfg).outSeq = [] ∧
    (State.resetWith img input cfg).inCount = 0 ∧
    (State.resetWith img input cfg).input = input ∧
    (State.resetWith img input cfg).cfg = cfg

/-- R253: word `k` of the image is `byte[2k] + 256 * byte[2k+1]`, for every file the loader takes. -/
def Obligations.LoaderReadsLittleEndianWords : Prop :=
  ∀ (bs : List Byte) (ws : List Word), loadImage (some bs) = .ok ws →
    bs.length = 2 * ws.length ∧
    ∀ k w, ws[k]? = some w →
      ∃ lo hi, bs[2 * k]? = some lo ∧ bs[2 * k + 1]? = some hi ∧
        w.toNat = lo.toNat + 256 * hi.toNat

/-- R254, R255 (decision D19 of the spec): an unreadable file, an odd number of bytes and more than
32768 words are refused and the core does not start; every other file is taken, and the core
starts in the reset state of its image. -/
def Obligations.LoaderRefusesWhatIsNoImage : Prop :=
  ∀ (bs : List Byte) (input : InputStream) (cfg : Config),
    State.boot none input cfg = .error .unreadable ∧
    (bs.length % 2 = 1 → State.boot (some bs) input cfg = .error .oddLength) ∧
    (bs.length % 2 = 0 → 2 * memCells < bs.length →
      State.boot (some bs) input cfg = .error .tooLong) ∧
    (bs.length % 2 = 0 → bs.length ≤ 2 * memCells →
      ∃ img, img.length ≤ memCells ∧ loadImage (some bs) = .ok img ∧
        State.boot (some bs) input cfg = .ok (State.resetWith img input cfg))

/-! ### The invariant -/

/-- The invariant of the model holds after reset with every image that meets R252, and in
`State.reset`. -/
def Obligations.ResetMeetsTheInvariant : Prop :=
  State.reset.Inv ∧
  ∀ (img : List Word) (input : InputStream) (cfg : Config), img.length ≤ memCells →
    (State.resetWith img input cfg).Inv

/-- Every step keeps the invariant: the canonical form of memory over 32768 cells (R34), the stack
within `STACK_DEPTH` (R31), and no character consumed that was not supplied (R191). -/
def Obligations.StepKeepsTheInvariant : Prop :=
  ∀ s t : State, s.Inv → step s = .next t → t.Inv

/-- In the canonical form two memories that read alike in every cell are the same list. -/
def Obligations.CanonicalMemoriesThatReadAlikeAreEqual : Prop :=
  ∀ m m' : Memory, m.wf → m'.wf → (∀ a, m.get a = m'.get a) → m = m'

/-! ### Encoding, decoding and the instruction cycle -/

/-- The decoder reads from the words of an encodable instruction that instruction, and leaves the
words after it (R80, R92). -/
def Obligations.DecodingAnEncodedInstructionGivesItBack : Prop :=
  ∀ (i : Instr) (rest : List Word), i.wf = true → decode (encode i ++ rest) = .ok (i, rest)

/-- What the decoder accepts is the encoding of an encodable instruction: there are no alternative
encodings (R80). -/
def Obligations.DecodedWordsAreTheEncodingOfAnEncodableInstruction : Prop :=
  ∀ (ws rest : List Word) (i : Instr), decode ws = .ok (i, rest) →
    i.wf = true ∧ ws = encode i ++ rest

/-- Words written out by hand from R92 and R98 decode to the instructions they stand for (the opcode
numbers are decision D1 of the spec). -/
def Obligations.SampleWordsDecodeToTheirInstructions : Prop :=
  decode [0] = .ok (.halt, []) ∧
  decode [1, 0b1000000000000000, 0b0000000000000100] = .ok (.set 0 (.lit 4), []) ∧
  decode [3, 0b1000000000000001] = .ok (.pop 1, []) ∧
  decode [4, 0b1000000000000011, 0b1000000000000010, 5] = .ok (.eq 3 (.reg 2) (.lit 5), []) ∧
  decode [8, 0, 0b0000000011001000] = .ok (.jf (.lit 0) (.lit 200), []) ∧
  decode [9, 0b1000000000000010, 0b1000000000000000, 0b1000000000000001] =
    .ok (.add 2 (.reg 0) (.reg 1), []) ∧
  decode [16, 0b0000000001100100, 0b1000000000000111] = .ok (.wmem (.lit 100) (.reg 7), []) ∧
  decode [20, 0b0000000100101100] = .ok (.inp (.mem 300), []) ∧
  decode [20, 0b1000000000000001] = .ok (.inp (.reg 1), []) ∧
  decode [0b0000000000010110] = .error (.unknownOpcode 22)

/-- A step of a RUNNING machine whose memory holds, from `pc` on and inside the 32768 cells, the
words of an encodable instruction is that instruction's `exec` (R85). -/
def Obligations.StepRunsTheInstructionAtPc : Prop :=
  ∀ (s : State) (i : Instr), s.run = .running → i.wf = true →
    (∀ k (h : k < (encode i).length),
      s.pc.toNat + k < memCells ∧ s.mem.get (s.pc.toNat + k) = (encode i)[k]) →
    step s = exec i s

/-- R86: `Value(w)` is `w` for 0..32767, the content of register `w - 32768` for 32768..32775, and
`DecodeError(w)` for every other word (the `fault_pc` of every fault is in `FaultsArePrecise`). -/
def Obligations.ValueOperandsResolveToLiteralOrRegister : Prop :=
  ∀ (s : State) (w : Word) (n : Nat) (ws : List Word),
    (w.toNat ≤ 32767 → ∃ v, takeOperand decodeValue n (w :: ws) = .ok (v, ws) ∧ s.value v = w) ∧
    (∀ i : Reg, w.toNat = 32768 + i.val →
      ∃ v, takeOperand decodeValue n (w :: ws) = .ok (v, ws) ∧ s.value v = s.reg i) ∧
    (32775 < w.toNat → ∃ r A, takeOperand decodeValue n (w :: ws) = .error r ∧
      (s.raiseReject r).run = .faulted .decodeError w A)

/-- R87: `Target(w)` is the register index `w - 32768` for 32768..32775 and `DecodeError(w)` for every
other word, a literal among them (the `fault_pc` of every fault is in `FaultsArePrecise`). -/
def Obligations.TargetOperandsNameARegister : Prop :=
  ∀ (s : State) (w : Word) (n : Nat) (ws : List Word),
    (∀ i : Reg, w.toNat = 32768 + i.val → takeOperand decodeTarget n (w :: ws) = .ok (i, ws)) ∧
    (w.toNat < 32768 ∨ 32775 < w.toNat → ∃ r A, takeOperand decodeTarget n (w :: ws) = .error r ∧
      (s.raiseReject r).run = .faulted .decodeError w A)

/-- R88 (its third line is decision D14 of the spec): the destination of `in` is the memory cell `w`
for 0..32767, the register `w - 32768` for 32768..32775, and `DecodeError(w)` for every other
word. -/
def Obligations.InputDestinationsNameACellOrARegister : Prop :=
  ∀ (s : State) (w : Word) (n : Nat) (ws : List Word),
    (w.toNat ≤ 32767 → takeOperand decodeDest n (w :: ws) = .ok (.mem w, ws)) ∧
    (∀ i : Reg, w.toNat = 32768 + i.val → takeOperand decodeDest n (w :: ws) = .ok (.reg i, ws)) ∧
    (32775 < w.toNat → ∃ r, takeOperand decodeDest n (w :: ws) = .error r ∧
      (s.raiseReject r).run = .faulted .decodeError w s.pc)

/-! ### Faults before `Execute` -/

/-- R28, R84, R214 step 1 (decisions D3, D4, D5 of the spec): the fetch of an opcode word at a `pc`
above 32767 is `MemoryBoundsError(pc)`, `pc` is unchanged, and so is the data state. -/
def Obligations.OpcodeFetchAboveMemoryFaults : Prop :=
  ∀ s : State, s.run = .running → 32767 < s.pc.toNat →
    ∃ t, step s = .next t ∧ t.run = .faulted .memoryBoundsError s.pc s.pc ∧ t.pc = s.pc ∧
      KeepsData s t

/-- R93: an opcode word above 21 is `UnknownOpcodeError(op)`; no register, memory cell, stack entry or
character stream is changed, and `pc` holds the address after the illegal word (the `fault_pc` of
every fault is in `FaultsArePrecise`). -/
def Obligations.OpcodeWordsAboveTwentyOneFault : Prop :=
  ∀ s : State, s.run = .running → s.pc.toNat ≤ 32767 → 21 < (s.mem.get s.pc.toNat).toNat →
    ∃ t A, step s = .next t ∧
      t.run = .faulted .unknownOpcodeError (s.mem.get s.pc.toNat) A ∧
      t.pc = s.pc + 1 ∧ KeepsData s t

/-- R94, R89, R214 step 3 (the order of fetch and check is decision D6 of the spec): the first operand
word that its kind does not accept is `DecodeError(w)`, whatever the words after it are; `pc` is
left after that word, and the data state is unchanged. -/
def Obligations.FirstBadOperandWordFaults : Prop :=
  ∀ (s : State) (kinds : List Kind) (n : Nat) (h : n < kinds.length),
    s.run = .running → s.pc.toNat + 1 + n ≤ 32767 →
    opcodeRows[(s.mem.get s.pc.toNat).toNat]? = some kinds →
    (∀ k (hk : k < n), kinds[k].accepts (s.mem.get (s.pc.toNat + 1 + k)) = true) →
    kinds[n].accepts (s.mem.get (s.pc.toNat + 1 + n)) = false →
    ∃ t, step s = .next t ∧
      t.run = .faulted .decodeError (s.mem.get (s.pc.toNat + 1 + n)) s.pc ∧
      t.pc = s.pc + BitVec.ofNat 16 (2 + n) ∧ KeepsData s t

/-- R96, R214 step 3 (decisions D3 to D6 of the spec): an operand word that would lie at address 32768
is `MemoryBoundsError(32768)` where the words before it are good, and `pc` is left at 32768. -/
def Obligations.OperandFetchAboveMemoryFaults : Prop :=
  ∀ (s : State) (kinds : List Kind) (n : Nat) (h : n < kinds.length),
    s.run = .running → s.pc.toNat + 1 + n = 32768 →
    opcodeRows[(s.mem.get s.pc.toNat).toNat]? = some kinds →
    (∀ k (hk : k < n), kinds[k].accepts (s.mem.get (s.pc.toNat + 1 + k)) = true) →
    ∃ t, step s = .next t ∧ t.run = .faulted .memoryBoundsError 32768 s.pc ∧ t.pc = 32768 ∧
      KeepsData s t

/-! ### Rules about the whole machine -/

/-- R220, R214 (`fault_pc` is decision D7 of the spec, its status fields D16): a step that ends in
FAULTED leaves registers, memory, stack, output and input position exactly as they were, and the
environment reads the address of the faulting instruction as `fault_pc`. -/
def Obligations.FaultsArePrecise : Prop :=
  ∀ s t : State, step s = .next t → t.status.kind = .faulted →
    KeepsData s t ∧ t.status.faultPc = some s.pc

/-- R36: a step that ends in HALTED changes nothing but `run` and the advance of `pc`: it is `halt`,
`ret` on an empty stack or `in` at the end of the input, and `pc` is after its words. -/
def Obligations.CleanEndsChangeNothingElse : Prop :=
  ∀ (s t : State) (reason : HaltReason), step s = .next t → t.run = .halted reason →
    KeepsData s t ∧ ∃ i rest, decode s.window = .ok (i, rest) ∧
      t.pc = s.pc + BitVec.ofNat 16 (encode i).length ∧
      (i = .halt ∧ reason = .haltInstruction ∨
        i = .ret ∧ s.stack = [] ∧ reason = .retEmptyStack ∨
        (∃ d, i = .inp d) ∧ s.inChar = .eof ∧ reason = .inputExhausted)

/-- R37 (decision D21 of the spec): only a RUNNING machine takes a step. That the other two answer a
stop by name is the model's (log entry 3). -/
def Obligations.OnlyARunningMachineSteps : Prop :=
  (∀ s t : State, step s = .next t → s.run = .running) ∧
  (∀ (s : State) (reason : HaltReason), s.run = .halted reason → step s = .fault (.halted reason)) ∧
  (∀ (s : State) (e : Cause) (info A : Word), s.run = .faulted e info A →
    step s = .fault (.faulted e info A))

/-- R85, R194 (decision D22 of the spec): a RUNNING machine always has a next state, but for an `in`
whose answer the environment has not given; "The only suspension point is the input opcode". The
name of that stop is the model's (log entry 4). -/
def Obligations.RunningMachineStepsUnlessItWaitsForInput : Prop :=
  ∀ s : State, s.run = .running →
    (∃ t, step s = .next t) ∨
    (step s = .fault .waitingForInput ∧ s.inChar = .waiting ∧
      ∃ d rest, decode s.window = .ok (.inp d, rest))

/-- R27: `pc` is loaded with a target only by `jmp`, by `jt` and `jf` when their condition holds, by
`call`, and by `ret` when the stack is not empty; the target is any 16-bit value and is not
checked. Every other instruction that does not stop the run leaves `pc` after its words (R26). -/
def Obligations.PcIsRedirectedOnlyByTransfers : Prop :=
  ∀ (i : Instr) (s t : State), s.run = .running → exec i s = .next t → t.run = .running →
    t.pc = (redirect s i).getD (s.pc + BitVec.ofNat 16 (encode i).length)

/-- R21: no instruction but those listed there, and no other event, writes a register. -/
def Obligations.OnlyTargetRegistersAreWritten : Prop :=
  ∀ (s t : State) (j : Reg), step s = .next t → t.reg j ≠ s.reg j →
    ∃ i rest, decode s.window = .ok (i, rest) ∧ targetReg i = some j

/-- R50, R61: no step writes a memory cell but that of `wmem` or of `in` with a memory destination,
and it writes the one cell that the instruction addresses. -/
def Obligations.OnlyTheAddressedCellIsWritten : Prop :=
  ∀ (s t : State) (a : Nat), step s = .next t → t.mem.get a ≠ s.mem.get a →
    ∃ i rest w, decode s.window = .ok (i, rest) ∧ storeAddress s i = some w ∧ w.toNat = a

/-- R33: only `push` and `call` push, one entry, and only `pop` and `ret` pop, one entry. -/
def Obligations.OnlyFourInstructionsTouchTheStack : Prop :=
  ∀ s t : State, step s = .next t → t.stack ≠ s.stack →
    ∃ i rest, decode s.window = .ok (i, rest) ∧
      ((∃ a, i = .push a ∧ t.stack = s.value a :: s.stack) ∨
        (∃ a, i = .call a ∧ t.stack = (s.pc + 2) :: s.stack) ∨
        (∃ r v, i = .pop r ∧ s.stack = v :: t.stack) ∨
        (∃ v, i = .ret ∧ s.stack = v :: t.stack))

/-- R39: the output is empty after reset; only `out` appends to it, and an `out` that does not fault
appends one byte; and the core never reads it: with another output so far the same step appends the
same bytes and does everything else alike. -/
def Obligations.OutputIsAppendedByOutAndNeverRead : Prop :=
  State.reset.outSeq = [] ∧
  ∀ s t : State, step s = .next t →
    ∃ new, t.outSeq = s.outSeq ++ new ∧
      (new ≠ [] → ∃ a c rest, decode s.window = .ok (.out a, rest) ∧ new = [c] ∧
        (s.value a).toNat = c.toNat) ∧
      (∀ a rest, decode s.window = .ok (.out a, rest) → t.run = .running → new.length = 1) ∧
      ∀ o, step { s with outSeq := o } = .next { t with outSeq := o ++ new }

/-- R192: `in` is the only instruction that touches the input port: every other step is the same
whatever the input is, and consumes nothing. -/
def Obligations.OnlyInReadsTheInput : Prop :=
  ∀ (s t : State) (input : InputStream), step s = .next t →
    (∀ d rest, decode s.window ≠ .ok (.inp d, rest)) →
    t.inCount = s.inCount ∧ step { s with input := input } = .next { t with input := input }

/-- R63, R60: a store is seen by the next fetch of its cell: the words fetched from the stored address
after `wmem` begin with the stored value. -/
def Obligations.StoresAreSeenByTheNextFetch : Prop :=
  ∀ (s : State) (a b : Value), (s.value a).toNat ≤ 32767 →
    ∃ t, exec (.wmem a b) s = .next t ∧
      (t.setPc (s.value a)).window.head? = some (s.value b)

/-- R23 (a), R166: `add`, `mult` and `not` write a value in 0..32767 and `eq` and `gt` write 0 or 1,
for all 16-bit contents of the registers. -/
def Obligations.ReducedResultsStayInRange : Prop :=
  ∀ (s u : State) (t : Reg) (a b : Value),
    ((exec (.add t a b) s = .next u ∨ exec (.mult t a b) s = .next u ∨
      exec (.not t a) s = .next u) → (u.reg t).toNat ≤ 32767) ∧
    ((exec (.eq t a b) s = .next u ∨ exec (.gt t a b) s = .next u) → (u.reg t).toNat ≤ 1)

/-- R23 (b): `set`, `and`, `or` and `mod` leave a value in 0..32767 in their target whenever every
register holds one. -/
def Obligations.FifteenBitSourcesGiveFifteenBitResults : Prop :=
  ∀ (s u : State) (t : Reg) (a b : Value),
    a.wf = true → b.wf = true → (∀ i, (s.reg i).toNat ≤ 32767) →
    (exec (.set t a) s = .next u ∨ exec (.and t a b) s = .next u ∨ exec (.or t a b) s = .next u ∨
      exec (.mod t a b) s = .next u) →
    (u.reg t).toNat ≤ 32767

/-! ### The instructions, in the order of the opcode table -/

/-- R110: the single word 0 is `halt`, which ends the run with `HALTED(halt_instruction)`, leaves `pc`
at `A + 1` and changes nothing else, and no step follows. -/
def Obligations.HaltEndsTheRun : Prop :=
  encode .halt = [0] ∧
  ∀ s : State, ∃ t, exec .halt s = .next t ∧ t.run = .halted .haltInstruction ∧
    t.pc = s.pc + 1 ∧ KeepsData s t ∧ ∀ u, step t ≠ .next u

/-- R111: the single word 21 is `noop`, whose only change is `pc <- A + 1`; at address 32767 that
leaves `pc` at 32768, and the following step faults with `MemoryBoundsError(32768)` (its `fault_pc`
is in `OpcodeFetchAboveMemoryFaults`). -/
def Obligations.NoopOnlyAdvancesPc : Prop :=
  encode .noop = [21] ∧
  ∀ s : State, ∃ t, exec .noop s = .next t ∧ t.pc = s.pc + 1 ∧ t.run = s.run ∧ KeepsData s t ∧
    (s.run = .running → s.pc = 32767 →
      ∃ u A, step t = .next u ∧ u.run = .faulted .memoryBoundsError 32768 A)

/-- R120 (no reduction of a register above 32767: decision D11 of the spec): `set` writes the resolved
value, all 16 bits, and changes nothing else. -/
def Obligations.SetCopiesTheValue : Prop :=
  ∀ (s : State) (t : Reg) (a : Value),
    ∃ u, exec (.set t a) s = .next u ∧ u.reg t = s.value a ∧ OnlyWritesReg t 3 s u

/-- R124, R31 (`STACK_DEPTH` is decision D9 of the spec): `push` puts the resolved value on top of a
stack that is not full, and changes nothing else. -/
def Obligations.PushPutsTheValueOnTop : Prop :=
  ∀ (s : State) (a : Value), s.cfg.stackDepth ≠ some s.stack.length →
    ∃ u, exec (.push a) s = .next u ∧ u.stack = s.value a :: s.stack ∧ u.pc = s.pc + 2 ∧
      KeepsBut [] [] s u ∧ u.run = s.run ∧ u.outSeq = s.outSeq ∧ u.inCount = s.inCount

/-- R31, R124, R148, R220 (decision D9 of the spec): where `STACK_DEPTH` is `some n` and the depth is
`n`, `push` and `call` take `StackOverflowError`, with the depth as information while 16 bits hold
it (above 65535 the information is the free value of log entry 7, of which nothing is said); `pc`
is not redirected. -/
def Obligations.PushAndCallOnAFullStackFault : Prop :=
  ∀ (s : State) (a : Value) (i : Instr), s.cfg.stackDepth = some s.stack.length →
    i = .push a ∨ i = .call a →
    ∃ u info, exec i s = .next u ∧ u.run = .faulted .stackOverflowError info s.pc ∧
      (s.stack.length ≤ 65535 → info.toNat = s.stack.length) ∧
      u.pc = s.pc + 2 ∧ KeepsData s u

/-- R126, R32 (no reduction of the entry: decision D11 of the spec): `pop` moves the top entry, all 16
bits, to the register; on an empty stack it takes `StackUnderflowError(0)` and writes nothing. -/
def Obligations.PopTakesTheTopOrFaults : Prop :=
  ∀ (s : State) (t : Reg),
    (∀ v rest, s.stack = v :: rest → ∃ u, exec (.pop t) s = .next u ∧ u.reg t = v ∧
      u.stack = rest ∧ u.pc = s.pc + 2 ∧ KeepsBut [t] [] s u ∧ u.run = s.run ∧
      u.outSeq = s.outSeq ∧ u.inCount = s.inCount) ∧
    (s.stack = [] → ∃ u, exec (.pop t) s = .next u ∧
      u.run = .faulted .stackUnderflowError 0 s.pc ∧ u.pc = s.pc + 2 ∧ KeepsData s u)

/-- R32: `push` followed by `pop` into any register yields that register containing the value pushed,
and the stack as it was. -/
def Obligations.PushThenPopRoundTrips : Prop :=
  ∀ (s : State) (t : Reg) (a : Value), s.cfg.stackDepth ≠ some s.stack.length →
    ∃ u v, exec (.push a) s = .next u ∧ exec (.pop t) u = .next v ∧
      v.reg t = s.value a ∧ v.stack = s.stack ∧ KeepsBut [t] [] s v

/-- R130 (the comparison of full 16-bit values is decision D11 of the spec), R131, R41: `eq` and `gt`
write 1 where the unsigned values are equal, respectively where the first is the greater, else 0,
and change nothing else. -/
def Obligations.ComparisonsWriteOneOrZero : Prop :=
  ∀ (s : State) (t : Reg) (a b : Value),
    (∃ u, exec (.eq t a b) s = .next u ∧
      (u.reg t).toNat = (if (s.value a).toNat = (s.value b).toNat then 1 else 0) ∧
      OnlyWritesReg t 4 s u) ∧
    (∃ u, exec (.gt t a b) s = .next u ∧
      (u.reg t).toNat = (if (s.value a).toNat > (s.value b).toNat then 1 else 0) ∧
      OnlyWritesReg t 4 s u)

/-- R140: the words of `jmp` are 6 and its operand, a bad operand word is rejected before `Execute`,
and `jmp` loads the resolved value into `pc`, any 16-bit value, and changes nothing else; a target
above 32767 makes the next step fault with `MemoryBoundsError(pc)`, with the target as its
`fault_pc`. -/
def Obligations.JmpLoadsPc : Prop :=
  ∀ (s : State) (a : Value),
    encode (.jmp a) = [6, encodeValue a] ∧
    (∀ (w : Word) (ws : List Word), 32775 < w.toNat →
      decode (6 :: w :: ws) = .error (.badOperand 1 w)) ∧
    ∃ u, exec (.jmp a) s = .next u ∧ u.pc = s.value a ∧ u.run = s.run ∧ KeepsData s u ∧
      (s.run = .running → 32767 < (s.value a).toNat →
        ∃ v, step u = .next v ∧ v.run = .faulted .memoryBoundsError (s.value a) (s.value a))

/-- R142, R144 (all 16 bits are tested: decision D11 of the spec): `jt a b` jumps to `b` when `a` is
not zero and otherwise leaves `pc` at `A + 3`, `jf a b` the other way round, so exactly one of them
jumps; neither changes anything else. -/
def Obligations.ConditionalJumpsTestForZero : Prop :=
  ∀ (s : State) (a b : Value),
    (∃ u, exec (.jt a b) s = .next u ∧
      u.pc = (if (s.value a).toNat = 0 then s.pc + 3 else s.value b) ∧
      u.run = s.run ∧ KeepsData s u) ∧
    (∃ u, exec (.jf a b) s = .next u ∧
      u.pc = (if (s.value a).toNat = 0 then s.value b else s.pc + 3) ∧
      u.run = s.run ∧ KeepsData s u)

/-- R160, R161, R166 (a source register above 32767 takes the same formula: decision D11 of the spec):
`add` and `mult` write the exact sum, respectively product, modulo 32768, and change nothing else. -/
def Obligations.AddAndMultReduceModulo32768 : Prop :=
  ∀ (s : State) (t : Reg) (a b : Value),
    (∃ u, exec (.add t a b) s = .next u ∧
      (u.reg t).toNat = ((s.value a).toNat + (s.value b).toNat) % 32768 ∧
      OnlyWritesReg t 4 s u) ∧
    (∃ u, exec (.mult t a b) s = .next u ∧
      (u.reg t).toNat = ((s.value a).toNat * (s.value b).toNat) % 32768 ∧
      OnlyWritesReg t 4 s u)

/-- R162, R167 (a dividend above 32767 is not reduced: decision D11 of the spec): `mod` writes the
unique `r < b` with `a = q*b + r`; a divisor of 0 is `DivisionError(a)` and nothing is written. -/
def Obligations.ModWritesTheRemainderOrFaults : Prop :=
  ∀ (s : State) (t : Reg) (a b : Value),
    ((s.value b).toNat ≠ 0 → ∃ u q, exec (.mod t a b) s = .next u ∧
      (s.value a).toNat = q * (s.value b).toNat + (u.reg t).toNat ∧
      (u.reg t).toNat < (s.value b).toNat ∧ OnlyWritesReg t 4 s u) ∧
    ((s.value b).toNat = 0 → ∃ u, exec (.mod t a b) s = .next u ∧
      u.run = .faulted .divisionError (s.value a) s.pc ∧ u.pc = s.pc + 4 ∧ KeepsData s u)

/-- R163, R164 (bit 15 is kept: decision D11 of the spec): bit by bit over bits 15..0, `and` writes the
conjunction and `or` the disjunction, and they change nothing else. -/
def Obligations.AndAndOrWorkBitByBit : Prop :=
  ∀ (s : State) (t : Reg) (a b : Value),
    (∃ u, exec (.and t a b) s = .next u ∧
      (∀ k, k < 16 →
        ((u.reg t).getLsbD k = true ↔
          (s.value a).getLsbD k = true ∧ (s.value b).getLsbD k = true)) ∧
      OnlyWritesReg t 4 s u) ∧
    (∃ u, exec (.or t a b) s = .next u ∧
      (∀ k, k < 16 →
        ((u.reg t).getLsbD k = true ↔
          (s.value a).getLsbD k = true ∨ (s.value b).getLsbD k = true)) ∧
      OnlyWritesReg t 4 s u)

/-- R165 (a register above 32767 is masked: decision D10 of the spec): `not` writes
`32767 - (a mod 32768)` and changes nothing else. -/
def Obligations.NotComplementsFifteenBits : Prop :=
  ∀ (s : State) (t : Reg) (a : Value), ∃ u, exec (.not t a) s = .next u ∧
    (u.reg t).toNat = 32767 - (s.value a).toNat % 32768 ∧ OnlyWritesReg t 3 s u

/-- R180, R52 (the bounds fault is decision D4 of the spec): `rmem` copies the whole cell into the
register; an address above 32767 is `MemoryBoundsError(a)` and the register is not written. -/
def Obligations.RmemLoadsTheCellOrFaults : Prop :=
  ∀ (s : State) (t : Reg) (a : Value),
    ((s.value a).toNat ≤ 32767 → ∃ u, exec (.rmem t a) s = .next u ∧
      u.reg t = s.mem.get (s.value a).toNat ∧ OnlyWritesReg t 3 s u) ∧
    (32767 < (s.value a).toNat → ∃ u, exec (.rmem t a) s = .next u ∧
      u.run = .faulted .memoryBoundsError (s.value a) s.pc ∧ u.pc = s.pc + 3 ∧ KeepsData s u)

/-- R181, R53 (the bounds fault is decision D4 of the spec): `wmem` stores all 16 bits of the second
value in the cell that the first one addresses, and changes no other cell and nothing else; an
address above 32767 is `MemoryBoundsError(a)` and memory is not written. -/
def Obligations.WmemStoresTheValueOrFaults : Prop :=
  ∀ (s : State) (a b : Value),
    ((s.value a).toNat ≤ 32767 → ∃ u, exec (.wmem a b) s = .next u ∧
      u.mem.get (s.value a).toNat = s.value b ∧ KeepsBut [] [(s.value a).toNat] s u ∧
      u.pc = s.pc + 3 ∧ u.stack = s.stack ∧ u.run = s.run ∧ u.outSeq = s.outSeq ∧
      u.inCount = s.inCount) ∧
    (32767 < (s.value a).toNat → ∃ u, exec (.wmem a b) s = .next u ∧
      u.run = .faulted .memoryBoundsError (s.value a) s.pc ∧ u.pc = s.pc + 3 ∧ KeepsData s u)

/-- R148, R31 (`STACK_DEPTH` is decision D9 of the spec): on a stack that is not full `call` pushes
`A + 2`, with no reduction, loads the value that its operand had before, and changes nothing
else. -/
def Obligations.CallPushesTheReturnAddress : Prop :=
  ∀ (s : State) (a : Value), s.cfg.stackDepth ≠ some s.stack.length →
    ∃ u, exec (.call a) s = .next u ∧ u.stack = (s.pc + 2) :: s.stack ∧ u.pc = s.value a ∧
      KeepsBut [] [] s u ∧ u.run = s.run ∧ u.outSeq = s.outSeq ∧ u.inCount = s.inCount

/-- R150: the single word 18 is `ret`, which loads the top entry into `pc` as it is, whoever pushed it, and pops it; on an empty
stack it is the clean end `HALTED(ret_empty_stack)` with `pc` at `A + 1`; nothing else changes. An
entry above 32767 makes the next step fault with `MemoryBoundsError` (its information and `fault_pc`
are in `OpcodeFetchAboveMemoryFaults`). -/
def Obligations.RetPopsPcOrEndsTheRun : Prop :=
  encode .ret = [18] ∧
  ∀ s : State,
    (∀ v rest, s.stack = v :: rest → ∃ u, exec .ret s = .next u ∧ u.pc = v ∧ u.stack = rest ∧
      KeepsBut [] [] s u ∧ u.run = s.run ∧ u.outSeq = s.outSeq ∧ u.inCount = s.inCount ∧
      (s.run = .running → 32767 < v.toNat →
        ∃ w info A, step u = .next w ∧ w.run = .faulted .memoryBoundsError info A)) ∧
    (s.stack = [] → ∃ u, exec .ret s = .next u ∧ u.run = .halted .retEmptyStack ∧
      u.pc = s.pc + 1 ∧ KeepsData s u)

/-- R153: `call` at address `A` followed immediately by `ret` resumes execution at `A + 2`, the
instruction immediately after the `call`, with the stack at its depth before the `call`. -/
def Obligations.CallThenRetResumesAfterTheCall : Prop :=
  ∀ (s : State) (a : Value) (rest : List Word), s.run = .running →
    decode s.window = .ok (.call a, rest) → s.cfg.stackDepth ≠ some s.stack.length →
    (s.value a).toNat ≤ 32767 → encode .ret = [s.mem.get (s.value a).toNat] →
    ∃ u v, step s = .next u ∧ u.pc = s.value a ∧ step u = .next v ∧ v.pc = s.pc + 2 ∧
      v.stack = s.stack ∧ v.run = .running ∧ KeepsBut [] [] s v

/-- R195, R190 (the test is on all 16 bits: decision D15 of the spec): `out` appends the value as one
byte where it is at most 255 and changes nothing else; otherwise it is `OutOfRangeError(a)` and
nothing is emitted. -/
def Obligations.OutEmitsTheByteOrFaults : Prop :=
  ∀ (s : State) (a : Value),
    ((s.value a).toNat ≤ 255 → ∃ u c, exec (.out a) s = .next u ∧ u.outSeq = s.outSeq ++ [c] ∧
      c.toNat = (s.value a).toNat ∧ u.pc = s.pc + 2 ∧ KeepsBut [] [] s u ∧ u.stack = s.stack ∧
      u.run = s.run ∧ u.inCount = s.inCount) ∧
    (255 < (s.value a).toNat → ∃ u, exec (.out a) s = .next u ∧
      u.run = .faulted .outOfRangeError (s.value a) s.pc ∧ u.pc = s.pc + 2 ∧ KeepsData s u)

/-- R196, R192, R191 (decisions D12, D13 of the spec): where the stream holds a byte number
`in_count`, `in` writes that byte, zero-extended, to the register or to the memory cell that its
raw destination names, counts it, and changes nothing else. -/
def Obligations.InWritesTheNextByteToItsSlot : Prop :=
  ∀ (s : State) (c : Byte), s.input.bytes[s.inCount]? = some c →
    (∀ r : Reg, ∃ u, exec (.inp (.reg r)) s = .next u ∧ (u.reg r).toNat = c.toNat ∧
      KeepsBut [r] [] s u ∧ u.inCount = s.inCount + 1 ∧ u.pc = s.pc + 2 ∧ u.stack = s.stack ∧
      u.run = s.run ∧ u.outSeq = s.outSeq) ∧
    (∀ m : Word, m.toNat ≤ 32767 → ∃ u, exec (.inp (.mem m)) s = .next u ∧
      (u.mem.get m.toNat).toNat = c.toNat ∧ KeepsBut [] [m.toNat] s u ∧
      u.inCount = s.inCount + 1 ∧ u.pc = s.pc + 2 ∧ u.stack = s.stack ∧ u.run = s.run ∧
      u.outSeq = s.outSeq)

/-- R196, R36: where the stream has ended and every byte of it is consumed, `in` ends the run with
`HALTED(input_exhausted)`, leaves `pc` at `A + 2`, and writes and counts nothing. -/
def Obligations.InAtTheEndOfInputEndsTheRun : Prop :=
  ∀ (s : State) (d : Dest), s.input.ended = true → s.input.bytes.length ≤ s.inCount →
    ∃ u, exec (.inp d) s = .next u ∧ u.run = .halted .inputExhausted ∧ u.pc = s.pc + 2 ∧
      KeepsData s u

/-- R194 (decision D22 of the spec; that an unanswered `in` answers a stop by name is the model's, log
entry 4): while the environment has not answered there is no step; once it supplies a byte the `in`
writes that byte to its register, and once it ends the stream the `in` ends the run. -/
def Obligations.InWaitsUntilTheEnvironmentAnswers : Prop :=
  ∀ s : State, s.input.ended = false → s.inCount = s.input.bytes.length →
    (∀ d, exec (.inp d) s = .fault .waitingForInput) ∧
    (∀ (r : Reg) (c : Byte), ∃ u, exec (.inp (.reg r)) (s.supply c) = .next u ∧
      (u.reg r).toNat = c.toNat ∧ u.inCount = s.inCount + 1) ∧
    (∀ d, ∃ u, exec (.inp d) s.endInput = .next u ∧ u.run = .halted .inputExhausted)
end

