-- ==== Sys2Proof/Laws/Decode.lean ====
section
/-! SUPPORT. The laws of the operand words (R86 to R88, R98): each operand kind against its encoder,
in both directions, and the one step of the stream that every format is made of (R89). -/

namespace Sys2Proof

theorem encodeReg_toNat (i : Reg) : (encodeReg i).toNat = regBase + i.val := by
  have := i.isLt
  simp only [encodeReg, BitVec.toNat_ofNat, regBase]
  omega

@[simp] theorem decodeTarget_encodeReg (i : Reg) : decodeTarget (encodeReg i) = some i := by
  simp [decodeTarget, encodeReg_toNat]

@[simp] theorem decodeValue_encodeValue (a : Value) (h : a.wf = true) :
    decodeValue (encodeValue a) = some a := by
  cases a with
  | lit v => simp_all [decodeValue, encodeValue, Value.wf]
  | reg i => simp [decodeValue, encodeValue, encodeReg_toNat]

@[simp] theorem decodeDest_encodeDest (d : Dest) (h : d.wf = true) :
    decodeDest (encodeDest d) = some d := by
  cases d with
  | mem a => simp_all [decodeDest, encodeDest, Dest.wf]
  | reg i => simp [decodeDest, encodeDest, encodeReg_toNat]

theorem encodeReg_of_toNat {w : Word} {i : Reg} (h : w.toNat = regBase + i.val) :
    encodeReg i = w := by
  apply BitVec.eq_of_toNat_eq
  exact (encodeReg_toNat i).trans h.symm

/-- A target word that is accepted is the word of that register. -/
theorem decodeTarget_eq_some {w : Word} {i : Reg} (h : decodeTarget w = some i) :
    w = encodeReg i := by
  unfold decodeTarget at h
  split at h
  · cases h
  · split at h
    · obtain rfl := Option.some.inj h
      exact (encodeReg_of_toNat (by simp only [regBase] at *; omega)).symm
    · cases h

/-- A value word that is accepted is the word of that operand, which can be encoded. -/
theorem decodeValue_eq_some {w : Word} {a : Value} (h : decodeValue w = some a) :
    a.wf = true ∧ w = encodeValue a := by
  unfold decodeValue at h
  split at h
  · cases h
    exact ⟨by simpa [Value.wf], rfl⟩
  · split at h
    · cases h
      exact ⟨rfl, (encodeReg_of_toNat (by simp only [regBase] at *; omega)).symm⟩
    · cases h

/-- A destination word that is accepted is the word of that destination, which can be encoded. -/
theorem decodeDest_eq_some {w : Word} {d : Dest} (h : decodeDest w = some d) :
    d.wf = true ∧ w = encodeDest d := by
  unfold decodeDest at h
  split at h
  · cases h
    exact ⟨by simpa [Dest.wf], rfl⟩
  · split at h
    · cases h
      exact ⟨rfl, (encodeReg_of_toNat (by simp only [memCells, regBase] at *; omega)).symm⟩
    · cases h

@[simp] theorem takeOperand_cons_some {α : Type} {kind : Word → Option α} {w : Word} {x : α}
    (h : kind w = some x) (n : Nat) (ws : List Word) :
    takeOperand kind n (w :: ws) = .ok (x, ws) := by
  simp [takeOperand, h]

/-- What an operand taken from the stream says of the stream (R89). -/
theorem takeOperand_eq_ok {α : Type} {kind : Word → Option α} {n : Nat} {ws rest : List Word}
    {x : α} (h : takeOperand kind n ws = .ok (x, rest)) :
    ∃ w, ws = w :: rest ∧ kind w = some x := by
  cases ws with
  | nil => cases h
  | cons w ws =>
    cases hk : kind w with
    | none => simp [takeOperand, hk] at h
    | some y =>
      simp only [takeOperand, hk, Except.ok.injEq, Prod.mk.injEq] at h
      obtain ⟨rfl, rfl⟩ := h
      exact ⟨w, rfl, hk⟩

/-! ### What each format accepts (R83): the operand words of operands that can be encoded -/

theorem formatV_eq_ok {mk : Value → Instr} {ws rest : List Word} {i : Instr}
    (h : formatV mk ws = .ok (i, rest)) :
    ∃ a, a.wf = true ∧ ws = encodeValue a :: rest ∧ i = mk a := by
  unfold formatV at h
  split at h
  · cases h
  · rename_i ht
    cases h
    obtain ⟨w, rfl, hw⟩ := takeOperand_eq_ok ht
    obtain ⟨ha, rfl⟩ := decodeValue_eq_some hw
    exact ⟨_, ha, rfl, rfl⟩

theorem formatT_eq_ok {mk : Reg → Instr} {ws rest : List Word} {i : Instr}
    (h : formatT mk ws = .ok (i, rest)) :
    ∃ a, ws = encodeReg a :: rest ∧ i = mk a := by
  unfold formatT at h
  split at h
  · cases h
  · rename_i ht
    cases h
    obtain ⟨w, rfl, hw⟩ := takeOperand_eq_ok ht
    obtain rfl := decodeTarget_eq_some hw
    exact ⟨_, rfl, rfl⟩

theorem formatD_eq_ok {mk : Dest → Instr} {ws rest : List Word} {i : Instr}
    (h : formatD mk ws = .ok (i, rest)) :
    ∃ a, a.wf = true ∧ ws = encodeDest a :: rest ∧ i = mk a := by
  unfold formatD at h
  split at h
  · cases h
  · rename_i ht
    cases h
    obtain ⟨w, rfl, hw⟩ := takeOperand_eq_ok ht
    obtain ⟨ha, rfl⟩ := decodeDest_eq_some hw
    exact ⟨_, ha, rfl, rfl⟩

theorem formatTV_eq_ok {mk : Reg → Value → Instr} {ws rest : List Word} {i : Instr}
    (h : formatTV mk ws = .ok (i, rest)) :
    ∃ t a, a.wf = true ∧ ws = encodeReg t :: encodeValue a :: rest ∧ i = mk t a := by
  unfold formatTV at h
  split at h
  · cases h
  · rename_i ht
    obtain ⟨w, rfl, hw⟩ := takeOperand_eq_ok ht
    obtain rfl := decodeTarget_eq_some hw
    split at h
    · cases h
    · rename_i ha
      cases h
      obtain ⟨v, rfl, hv⟩ := takeOperand_eq_ok ha
      obtain ⟨hwf, rfl⟩ := decodeValue_eq_some hv
      exact ⟨_, _, hwf, rfl, rfl⟩

theorem formatVV_eq_ok {mk : Value → Value → Instr} {ws rest : List Word} {i : Instr}
    (h : formatVV mk ws = .ok (i, rest)) :
    ∃ a b, (a.wf && b.wf) = true ∧ ws = encodeValue a :: encodeValue b :: rest ∧ i = mk a b := by
  unfold formatVV at h
  split at h
  · cases h
  · rename_i ha
    obtain ⟨w, rfl, hw⟩ := takeOperand_eq_ok ha
    obtain ⟨hawf, rfl⟩ := decodeValue_eq_some hw
    split at h
    · cases h
    · rename_i hb
      cases h
      obtain ⟨v, rfl, hv⟩ := takeOperand_eq_ok hb
      obtain ⟨hbwf, rfl⟩ := decodeValue_eq_some hv
      exact ⟨_, _, by simp [hawf, hbwf], rfl, rfl⟩

theorem formatTVV_eq_ok {mk : Reg → Value → Value → Instr} {ws rest : List Word} {i : Instr}
    (h : formatTVV mk ws = .ok (i, rest)) :
    ∃ t a b, (a.wf && b.wf) = true ∧
      ws = encodeReg t :: encodeValue a :: encodeValue b :: rest ∧ i = mk t a b := by
  unfold formatTVV at h
  split at h
  · cases h
  · rename_i ht
    obtain ⟨w, rfl, hw⟩ := takeOperand_eq_ok ht
    obtain rfl := decodeTarget_eq_some hw
    split at h
    · cases h
    · rename_i ha
      obtain ⟨v, rfl, hv⟩ := takeOperand_eq_ok ha
      obtain ⟨hawf, rfl⟩ := decodeValue_eq_some hv
      split at h
      · cases h
      · rename_i hb
        cases h
        obtain ⟨u, rfl, hu⟩ := takeOperand_eq_ok hb
        obtain ⟨hbwf, rfl⟩ := decodeValue_eq_some hu
        exact ⟨_, _, _, by simp [hawf, hbwf], rfl, rfl⟩

end Sys2Proof
end

