-- ==== Sys2Proof/Laws/Memory.lean ====
section
/-! SUPPORT. The laws of the memory array: a read after a write (R57), the canonical form and that
every memory operation keeps it, and the words of an image (R252). -/

namespace Sys2Proof.Machine

open Sys2Proof

/-! ### The defining cases -/

theorem Memory.insert_of_lt (m : Memory) {k a : Nat} (w v : Word) (h : a < k) :
    Memory.insert ((k, w) :: m) a v = (a, v) :: (k, w) :: m := by
  simp [Memory.insert, h]

theorem Memory.insert_of_not_lt (m : Memory) {k a : Nat} (w v : Word) (h : ¬a < k) :
    Memory.insert ((k, w) :: m) a v = (k, w) :: m.insert a v := by
  simp [Memory.insert, h]

theorem Memory.set_of_zero (m : Memory) (a : Nat) {v : Word} (h : v = 0) :
    m.set a v = m.erase a := if_pos h

theorem Memory.set_of_ne_zero (m : Memory) (a : Nat) {v : Word} (h : ¬v = 0) :
    m.set a v = (m.erase a).insert a v := if_neg h

theorem Memory.fromWords_of_zero (k : Nat) {w : Word} (ws : List Word) (h : w = 0) :
    Memory.fromWords k (w :: ws) = Memory.fromWords (k + 1) ws := if_pos h

theorem Memory.fromWords_of_ne_zero (k : Nat) {w : Word} (ws : List Word) (h : ¬w = 0) :
    Memory.fromWords k (w :: ws) = (k, w) :: Memory.fromWords (k + 1) ws := if_neg h

/-! ### A read after a write (R57) -/

theorem Memory.get_erase_same (m : Memory) (a : Nat) : (m.erase a).get a = 0 := by
  induction m with
  | nil => rfl
  | cons c m ih =>
    obtain ⟨k, v⟩ := c
    by_cases h : k = a
    · simpa [Memory.erase, h] using ih
    · simpa [Memory.erase, h, Memory.get] using ih

theorem Memory.get_erase_other (m : Memory) {a b : Nat} (h : b ≠ a) :
    (m.erase a).get b = m.get b := by
  induction m with
  | nil => rfl
  | cons c m ih =>
    obtain ⟨k, v⟩ := c
    by_cases hk : k = a
    · subst hk
      simpa [Memory.erase, Memory.get, Ne.symm h] using ih
    · by_cases hb : k = b
      · simp [Memory.erase, hb, Memory.get, h]
      · simpa [Memory.erase, hk, Memory.get, hb] using ih

theorem Memory.get_insert_same (m : Memory) (a : Nat) (v : Word) (h : ∀ c ∈ m, c.1 ≠ a) :
    (m.insert a v).get a = v := by
  induction m with
  | nil => simp [Memory.insert, Memory.get]
  | cons c m ih =>
    obtain ⟨k, w⟩ := c
    have hk : k ≠ a := h (k, w) (by simp)
    have ih' := ih fun c hc => h c (by simp [hc])
    by_cases hlt : a < k
    · simp [Memory.insert, hlt, Memory.get]
    · simpa [Memory.insert, hlt, Memory.get, hk] using ih'

theorem Memory.get_insert_other (m : Memory) {a b : Nat} (v : Word) (h : b ≠ a) :
    (m.insert a v).get b = m.get b := by
  induction m with
  | nil => simp [Memory.insert, Memory.get, Ne.symm h]
  | cons c m ih =>
    obtain ⟨k, w⟩ := c
    by_cases hlt : a < k
    · simp [Memory.insert, hlt, Memory.get, Ne.symm h]
    · rw [Memory.insert_of_not_lt m w v hlt]
      by_cases hk : k = b
      · simp [Memory.get, hk]
      · simpa [Memory.get, hk] using ih

theorem Memory.not_mem_erase (m : Memory) (a : Nat) : ∀ c ∈ m.erase a, c.1 ≠ a := by
  intro c hc
  simpa using (List.mem_filter.1 hc).2

/-- A read of a cell gives the value last written to it (R57). -/
@[simp] theorem Memory.get_set_same (m : Memory) (a : Nat) (v : Word) : (m.set a v).get a = v := by
  by_cases h : v = 0
  · rw [Memory.set_of_zero m a h, Memory.get_erase_same, h]
  · rw [Memory.set_of_ne_zero m a h, Memory.get_insert_same _ a v (Memory.not_mem_erase m a)]

/-- A write leaves every other cell alone (R57). -/
theorem Memory.get_set_other (m : Memory) {a b : Nat} (v : Word) (h : b ≠ a) :
    (m.set a v).get b = m.get b := by
  by_cases hv : v = 0
  · rw [Memory.set_of_zero m a hv, Memory.get_erase_other m h]
  · rw [Memory.set_of_ne_zero m a hv, Memory.get_insert_other _ v h, Memory.get_erase_other m h]

theorem Memory.mem_insert (m : Memory) (a : Nat) (v : Word) (c : Nat × Word) :
    c ∈ m.insert a v ↔ c = (a, v) ∨ c ∈ m := by
  induction m with
  | nil => simp [Memory.insert]
  | cons d m ih =>
    obtain ⟨k, w⟩ := d
    by_cases hlt : a < k
    · simp [Memory.insert, hlt]
    · rw [Memory.insert_of_not_lt m w v hlt, List.mem_cons, ih, List.mem_cons]
      tauto

theorem Memory.erase_wf {m : Memory} (a : Nat) (h : m.wf) : (m.erase a).wf :=
  ⟨h.1.filter _, fun c hc => h.2 c (List.mem_filter.1 hc).1⟩

theorem Memory.insert_wf {m : Memory} {a : Nat} {v : Word} (h : m.wf) (hm : ∀ c ∈ m, c.1 ≠ a)
    (ha : a < memCells) (hv : v ≠ 0) : (m.insert a v).wf := by
  refine ⟨?_, fun c hc => ?_⟩
  · induction m with
    | nil => simp [Memory.insert]
    | cons d m ih =>
      obtain ⟨k, w⟩ := d
      obtain ⟨hk, hrest⟩ := List.pairwise_cons.1 h.1
      by_cases hlt : a < k
      · have : (∀ c ∈ ((k, w) :: m : Memory), a < c.1) := by
          intro c hc
          rcases List.mem_cons.1 hc with rfl | hc
          · exact hlt
          · exact lt_trans hlt (hk c hc)
        rw [Memory.insert_of_lt m w v hlt]
        exact List.pairwise_cons.2 ⟨this, h.1⟩
      · have hka : k < a := lt_of_le_of_ne (Nat.le_of_not_lt hlt) (hm (k, w) (by simp))
        have ih' := ih ⟨hrest, fun c hc => h.2 c (by simp [hc])⟩ fun c hc => hm c (by simp [hc])
        have : ∀ c ∈ Memory.insert m a v, k < c.1 := by
          intro c hc
          rcases (Memory.mem_insert m a v c).1 hc with rfl | hc
          · exact hka
          · exact hk c hc
        rw [Memory.insert_of_not_lt m w v hlt]
        exact List.pairwise_cons.2 ⟨this, ih'⟩
  · rcases (Memory.mem_insert m a v c).1 hc with rfl | hc
    · exact ⟨ha, hv⟩
    · exact h.2 c hc

/-- Storing to a cell of the 32768 keeps the canonical form. -/
theorem Memory.set_wf {m : Memory} {a : Nat} (v : Word) (h : m.wf) (ha : a < memCells) :
    (m.set a v).wf := by
  by_cases hv : v = 0
  · exact Memory.set_of_zero m a hv ▸ Memory.erase_wf a h
  · exact Memory.set_of_ne_zero m a hv ▸
      Memory.insert_wf (Memory.erase_wf a h) (Memory.not_mem_erase m a) ha hv

theorem Memory.nil_wf : Memory.wf [] := by simp [Memory.wf]

/-- Placing words from an address on keeps the canonical form. -/
theorem Memory.place_wf {m : Memory} (a : Nat) (ws : List Word) (h : m.wf) :
    (m.place a ws).wf := by
  induction ws generalizing m a with
  | nil => exact h
  | cons w ws ih =>
    by_cases ha : a < memCells
    · simpa [Memory.place, ha] using ih (a + 1) (Memory.set_wf w h ha)
    · simpa [Memory.place, ha] using h

/-! ### The words of an image (R252) -/

theorem Memory.fromWords_ge (ws : List Word) (k : Nat) : ∀ c ∈ Memory.fromWords k ws, k ≤ c.1 := by
  induction ws generalizing k with
  | nil => simp [Memory.fromWords]
  | cons w ws ih =>
    intro c hc
    by_cases hw : w = 0
    · rw [Memory.fromWords_of_zero k ws hw] at hc
      exact Nat.le_of_succ_le (ih (k + 1) c hc)
    · rw [Memory.fromWords_of_ne_zero k ws hw] at hc
      rcases List.mem_cons.1 hc with rfl | hc
      · exact le_refl k
      · exact Nat.le_of_succ_le (ih (k + 1) c hc)

theorem Memory.get_eq_zero_of_not_mem (m : Memory) (a : Nat) (h : ∀ c ∈ m, c.1 ≠ a) :
    m.get a = 0 := by
  induction m with
  | nil => rfl
  | cons c m ih =>
    obtain ⟨k, v⟩ := c
    have hk : k ≠ a := h (k, v) (by simp)
    simpa [Memory.get, hk] using ih fun c hc => h c (by simp [hc])

/-- Cell `k + n` holds word `n` of the words loaded from `k` on, and 0 where there is none. -/
theorem Memory.get_fromWords (ws : List Word) (k n : Nat) :
    (Memory.fromWords k ws).get (k + n) = (ws[n]?).getD 0 := by
  induction ws generalizing k n with
  | nil => simp [Memory.fromWords, Memory.get]
  | cons w ws ih =>
    cases n with
    | zero =>
      by_cases hw : w = 0
      · have hne : ∀ c ∈ Memory.fromWords (k + 1) ws, c.1 ≠ k := fun c hc => by
          have := Memory.fromWords_ge ws (k + 1) c hc
          omega
        rw [Memory.fromWords_of_zero k ws hw, hw]
        exact Memory.get_eq_zero_of_not_mem _ _ hne
      · simp [Memory.fromWords_of_ne_zero k ws hw, Memory.get]
    | succ n =>
      have ih' := ih (k + 1) n
      rw [show k + 1 + n = k + (n + 1) by omega] at ih'
      by_cases hw : w = 0
      · simpa [Memory.fromWords_of_zero k ws hw] using ih'
      · simpa [Memory.fromWords_of_ne_zero k ws hw, Memory.get] using ih'

theorem Memory.fromWords_wf (ws : List Word) (k : Nat) (h : k + ws.length ≤ memCells) :
    (Memory.fromWords k ws).wf := by
  induction ws generalizing k with
  | nil => exact Memory.nil_wf
  | cons w ws ih =>
    have hlen : k + 1 + ws.length ≤ memCells := by
      simp only [List.length_cons] at h
      omega
    have ih' := ih (k + 1) hlen
    by_cases hw : w = 0
    · exact Memory.fromWords_of_zero k ws hw ▸ ih'
    · have hgt : ∀ c ∈ Memory.fromWords (k + 1) ws, k < c.1 := fun c hc =>
        Memory.fromWords_ge ws (k + 1) c hc
      rw [Memory.fromWords_of_ne_zero k ws hw]
      refine ⟨List.pairwise_cons.2 ⟨hgt, ih'.1⟩, fun c hc => ?_⟩
      rcases List.mem_cons.1 hc with rfl | hc
      · exact ⟨by simp only [memCells] at *; omega, hw⟩
      · exact ih'.2 c hc

/-! ### The words at an address -/

/-- The fetched words are the cells one after another, as far as there are cells. -/
theorem Memory.wordsFrom_getElem? (m : Memory) (n a k : Nat) :
    (m.wordsFrom n a)[k]? =
      if k < n ∧ a + k < memCells then some (m.get (a + k)) else none := by
  induction n generalizing a k with
  | zero => simp [Memory.wordsFrom]
  | succ n ih =>
    by_cases ha : a < memCells
    · cases k with
      | zero => simp [Memory.wordsFrom, ha]
      | succ k =>
        have := ih (a + 1) k
        rw [show a + 1 + k = a + (k + 1) by omega] at this
        simpa [Memory.wordsFrom, ha] using this
    · have : ¬ a + k < memCells := by omega
      simp [Memory.wordsFrom, ha, this]

end Sys2Proof.Machine
end

