-- ==== Sys2Proof/Laws/State.lean ====
section
/-! SUPPORT. One lemma for each field of the state under each update, so that no later proof unfolds a
record update; then the same for reading a register. -/

namespace Sys2Proof.Machine

open Sys2Proof

/-! ### `setReg` -/

@[simp] theorem State.regs_setReg (s : State) (i : Reg) (v : Word) : (s.setReg i v).regs = s.regs.set i.val v i.isLt := rfl
@[simp] theorem State.pc_setReg (s : State) (i : Reg) (v : Word) : (s.setReg i v).pc = s.pc := rfl
@[simp] theorem State.stack_setReg (s : State) (i : Reg) (v : Word) : (s.setReg i v).stack = s.stack := rfl
@[simp] theorem State.mem_setReg (s : State) (i : Reg) (v : Word) : (s.setReg i v).mem = s.mem := rfl
@[simp] theorem State.run_setReg (s : State) (i : Reg) (v : Word) : (s.setReg i v).run = s.run := rfl
@[simp] theorem State.outSeq_setReg (s : State) (i : Reg) (v : Word) : (s.setReg i v).outSeq = s.outSeq := rfl
@[simp] theorem State.inCount_setReg (s : State) (i : Reg) (v : Word) : (s.setReg i v).inCount = s.inCount := rfl
@[simp] theorem State.input_setReg (s : State) (i : Reg) (v : Word) : (s.setReg i v).input = s.input := rfl
@[simp] theorem State.cfg_setReg (s : State) (i : Reg) (v : Word) : (s.setReg i v).cfg = s.cfg := rfl

/-! ### `setPc` -/

@[simp] theorem State.regs_setPc (s : State) (target : Word) : (s.setPc target).regs = s.regs := rfl
@[simp] theorem State.pc_setPc (s : State) (target : Word) : (s.setPc target).pc = target := rfl
@[simp] theorem State.stack_setPc (s : State) (target : Word) : (s.setPc target).stack = s.stack := rfl
@[simp] theorem State.mem_setPc (s : State) (target : Word) : (s.setPc target).mem = s.mem := rfl
@[simp] theorem State.run_setPc (s : State) (target : Word) : (s.setPc target).run = s.run := rfl
@[simp] theorem State.outSeq_setPc (s : State) (target : Word) : (s.setPc target).outSeq = s.outSeq := rfl
@[simp] theorem State.inCount_setPc (s : State) (target : Word) : (s.setPc target).inCount = s.inCount := rfl
@[simp] theorem State.input_setPc (s : State) (target : Word) : (s.setPc target).input = s.input := rfl
@[simp] theorem State.cfg_setPc (s : State) (target : Word) : (s.setPc target).cfg = s.cfg := rfl

/-! ### `advance` -/

@[simp] theorem State.regs_advance (s : State) (n : Nat) : (s.advance n).regs = s.regs := rfl
@[simp] theorem State.pc_advance (s : State) (n : Nat) : (s.advance n).pc = s.pc + BitVec.ofNat 16 n := rfl
@[simp] theorem State.stack_advance (s : State) (n : Nat) : (s.advance n).stack = s.stack := rfl
@[simp] theorem State.mem_advance (s : State) (n : Nat) : (s.advance n).mem = s.mem := rfl
@[simp] theorem State.run_advance (s : State) (n : Nat) : (s.advance n).run = s.run := rfl
@[simp] theorem State.outSeq_advance (s : State) (n : Nat) : (s.advance n).outSeq = s.outSeq := rfl
@[simp] theorem State.inCount_advance (s : State) (n : Nat) : (s.advance n).inCount = s.inCount := rfl
@[simp] theorem State.input_advance (s : State) (n : Nat) : (s.advance n).input = s.input := rfl
@[simp] theorem State.cfg_advance (s : State) (n : Nat) : (s.advance n).cfg = s.cfg := rfl

/-! ### `setStack` -/

@[simp] theorem State.regs_setStack (s : State) (st : List Word) : (s.setStack st).regs = s.regs := rfl
@[simp] theorem State.pc_setStack (s : State) (st : List Word) : (s.setStack st).pc = s.pc := rfl
@[simp] theorem State.stack_setStack (s : State) (st : List Word) : (s.setStack st).stack = st := rfl
@[simp] theorem State.mem_setStack (s : State) (st : List Word) : (s.setStack st).mem = s.mem := rfl
@[simp] theorem State.run_setStack (s : State) (st : List Word) : (s.setStack st).run = s.run := rfl
@[simp] theorem State.outSeq_setStack (s : State) (st : List Word) : (s.setStack st).outSeq = s.outSeq := rfl
@[simp] theorem State.inCount_setStack (s : State) (st : List Word) : (s.setStack st).inCount = s.inCount := rfl
@[simp] theorem State.input_setStack (s : State) (st : List Word) : (s.setStack st).input = s.input := rfl
@[simp] theorem State.cfg_setStack (s : State) (st : List Word) : (s.setStack st).cfg = s.cfg := rfl

/-! ### `setMem` -/

@[simp] theorem State.regs_setMem (s : State) (m : Memory) : (s.setMem m).regs = s.regs := rfl
@[simp] theorem State.pc_setMem (s : State) (m : Memory) : (s.setMem m).pc = s.pc := rfl
@[simp] theorem State.stack_setMem (s : State) (m : Memory) : (s.setMem m).stack = s.stack := rfl
@[simp] theorem State.mem_setMem (s : State) (m : Memory) : (s.setMem m).mem = m := rfl
@[simp] theorem State.run_setMem (s : State) (m : Memory) : (s.setMem m).run = s.run := rfl
@[simp] theorem State.outSeq_setMem (s : State) (m : Memory) : (s.setMem m).outSeq = s.outSeq := rfl
@[simp] theorem State.inCount_setMem (s : State) (m : Memory) : (s.setMem m).inCount = s.inCount := rfl
@[simp] theorem State.input_setMem (s : State) (m : Memory) : (s.setMem m).input = s.input := rfl
@[simp] theorem State.cfg_setMem (s : State) (m : Memory) : (s.setMem m).cfg = s.cfg := rfl

/-! ### `setRun` -/

@[simp] theorem State.regs_setRun (s : State) (r : Run) : (s.setRun r).regs = s.regs := rfl
@[simp] theorem State.pc_setRun (s : State) (r : Run) : (s.setRun r).pc = s.pc := rfl
@[simp] theorem State.stack_setRun (s : State) (r : Run) : (s.setRun r).stack = s.stack := rfl
@[simp] theorem State.mem_setRun (s : State) (r : Run) : (s.setRun r).mem = s.mem := rfl
@[simp] theorem State.run_setRun (s : State) (r : Run) : (s.setRun r).run = r := rfl
@[simp] theorem State.outSeq_setRun (s : State) (r : Run) : (s.setRun r).outSeq = s.outSeq := rfl
@[simp] theorem State.inCount_setRun (s : State) (r : Run) : (s.setRun r).inCount = s.inCount := rfl
@[simp] theorem State.input_setRun (s : State) (r : Run) : (s.setRun r).input = s.input := rfl
@[simp] theorem State.cfg_setRun (s : State) (r : Run) : (s.setRun r).cfg = s.cfg := rfl

/-! ### `emit` -/

@[simp] theorem State.regs_emit (s : State) (c : Byte) : (s.emit c).regs = s.regs := rfl
@[simp] theorem State.pc_emit (s : State) (c : Byte) : (s.emit c).pc = s.pc := rfl
@[simp] theorem State.stack_emit (s : State) (c : Byte) : (s.emit c).stack = s.stack := rfl
@[simp] theorem State.mem_emit (s : State) (c : Byte) : (s.emit c).mem = s.mem := rfl
@[simp] theorem State.run_emit (s : State) (c : Byte) : (s.emit c).run = s.run := rfl
@[simp] theorem State.outSeq_emit (s : State) (c : Byte) : (s.emit c).outSeq = s.outSeq ++ [c] := rfl
@[simp] theorem State.inCount_emit (s : State) (c : Byte) : (s.emit c).inCount = s.inCount := rfl
@[simp] theorem State.input_emit (s : State) (c : Byte) : (s.emit c).input = s.input := rfl
@[simp] theorem State.cfg_emit (s : State) (c : Byte) : (s.emit c).cfg = s.cfg := rfl

/-! ### `consume` -/

@[simp] theorem State.regs_consume (s : State) : (s.consume).regs = s.regs := rfl
@[simp] theorem State.pc_consume (s : State) : (s.consume).pc = s.pc := rfl
@[simp] theorem State.stack_consume (s : State) : (s.consume).stack = s.stack := rfl
@[simp] theorem State.mem_consume (s : State) : (s.consume).mem = s.mem := rfl
@[simp] theorem State.run_consume (s : State) : (s.consume).run = s.run := rfl
@[simp] theorem State.outSeq_consume (s : State) : (s.consume).outSeq = s.outSeq := rfl
@[simp] theorem State.inCount_consume (s : State) : (s.consume).inCount = s.inCount + 1 := rfl
@[simp] theorem State.input_consume (s : State) : (s.consume).input = s.input := rfl
@[simp] theorem State.cfg_consume (s : State) : (s.consume).cfg = s.cfg := rfl

/-! ### `raise` -/

@[simp] theorem State.regs_raise (s : State) (e : Cause) (info A : Word) : (s.raise e info A).regs = s.regs := rfl
@[simp] theorem State.pc_raise (s : State) (e : Cause) (info A : Word) : (s.raise e info A).pc = s.pc := rfl
@[simp] theorem State.stack_raise (s : State) (e : Cause) (info A : Word) : (s.raise e info A).stack = s.stack := rfl
@[simp] theorem State.mem_raise (s : State) (e : Cause) (info A : Word) : (s.raise e info A).mem = s.mem := rfl
@[simp] theorem State.run_raise (s : State) (e : Cause) (info A : Word) : (s.raise e info A).run = .faulted e info A := rfl
@[simp] theorem State.outSeq_raise (s : State) (e : Cause) (info A : Word) : (s.raise e info A).outSeq = s.outSeq := rfl
@[simp] theorem State.inCount_raise (s : State) (e : Cause) (info A : Word) : (s.raise e info A).inCount = s.inCount := rfl
@[simp] theorem State.input_raise (s : State) (e : Cause) (info A : Word) : (s.raise e info A).input = s.input := rfl
@[simp] theorem State.cfg_raise (s : State) (e : Cause) (info A : Word) : (s.raise e info A).cfg = s.cfg := rfl

/-! ### `haltFor` -/

@[simp] theorem State.regs_haltFor (s : State) (reason : HaltReason) : (s.haltFor reason).regs = s.regs := rfl
@[simp] theorem State.pc_haltFor (s : State) (reason : HaltReason) : (s.haltFor reason).pc = s.pc := rfl
@[simp] theorem State.stack_haltFor (s : State) (reason : HaltReason) : (s.haltFor reason).stack = s.stack := rfl
@[simp] theorem State.mem_haltFor (s : State) (reason : HaltReason) : (s.haltFor reason).mem = s.mem := rfl
@[simp] theorem State.run_haltFor (s : State) (reason : HaltReason) : (s.haltFor reason).run = .halted reason := rfl
@[simp] theorem State.outSeq_haltFor (s : State) (reason : HaltReason) : (s.haltFor reason).outSeq = s.outSeq := rfl
@[simp] theorem State.inCount_haltFor (s : State) (reason : HaltReason) : (s.haltFor reason).inCount = s.inCount := rfl
@[simp] theorem State.input_haltFor (s : State) (reason : HaltReason) : (s.haltFor reason).input = s.input := rfl
@[simp] theorem State.cfg_haltFor (s : State) (reason : HaltReason) : (s.haltFor reason).cfg = s.cfg := rfl

/-! ### `fail` -/

@[simp] theorem State.regs_fail (s : State) (n : Nat) (e : Cause) (info : Word) : (s.fail n e info).regs = s.regs := rfl
@[simp] theorem State.pc_fail (s : State) (n : Nat) (e : Cause) (info : Word) : (s.fail n e info).pc = s.pc + BitVec.ofNat 16 n := rfl
@[simp] theorem State.stack_fail (s : State) (n : Nat) (e : Cause) (info : Word) : (s.fail n e info).stack = s.stack := rfl
@[simp] theorem State.mem_fail (s : State) (n : Nat) (e : Cause) (info : Word) : (s.fail n e info).mem = s.mem := rfl
@[simp] theorem State.run_fail (s : State) (n : Nat) (e : Cause) (info : Word) : (s.fail n e info).run = .faulted e info s.pc := rfl
@[simp] theorem State.outSeq_fail (s : State) (n : Nat) (e : Cause) (info : Word) : (s.fail n e info).outSeq = s.outSeq := rfl
@[simp] theorem State.inCount_fail (s : State) (n : Nat) (e : Cause) (info : Word) : (s.fail n e info).inCount = s.inCount := rfl
@[simp] theorem State.input_fail (s : State) (n : Nat) (e : Cause) (info : Word) : (s.fail n e info).input = s.input := rfl
@[simp] theorem State.cfg_fail (s : State) (n : Nat) (e : Cause) (info : Word) : (s.fail n e info).cfg = s.cfg := rfl

/-! ### `writeBack` -/

@[simp] theorem State.regs_writeBack (s : State) (n : Nat) (t : Reg) (v : Word) : (s.writeBack n t v).regs = s.regs.set t.val v t.isLt := rfl
@[simp] theorem State.pc_writeBack (s : State) (n : Nat) (t : Reg) (v : Word) : (s.writeBack n t v).pc = s.pc + BitVec.ofNat 16 n := rfl
@[simp] theorem State.stack_writeBack (s : State) (n : Nat) (t : Reg) (v : Word) : (s.writeBack n t v).stack = s.stack := rfl
@[simp] theorem State.mem_writeBack (s : State) (n : Nat) (t : Reg) (v : Word) : (s.writeBack n t v).mem = s.mem := rfl
@[simp] theorem State.run_writeBack (s : State) (n : Nat) (t : Reg) (v : Word) : (s.writeBack n t v).run = s.run := rfl
@[simp] theorem State.outSeq_writeBack (s : State) (n : Nat) (t : Reg) (v : Word) : (s.writeBack n t v).outSeq = s.outSeq := rfl
@[simp] theorem State.inCount_writeBack (s : State) (n : Nat) (t : Reg) (v : Word) : (s.writeBack n t v).inCount = s.inCount := rfl
@[simp] theorem State.input_writeBack (s : State) (n : Nat) (t : Reg) (v : Word) : (s.writeBack n t v).input = s.input := rfl
@[simp] theorem State.cfg_writeBack (s : State) (n : Nat) (t : Reg) (v : Word) : (s.writeBack n t v).cfg = s.cfg := rfl

/-! ### `endInput` -/

@[simp] theorem State.regs_endInput (s : State) : (s.endInput).regs = s.regs := rfl
@[simp] theorem State.pc_endInput (s : State) : (s.endInput).pc = s.pc := rfl
@[simp] theorem State.stack_endInput (s : State) : (s.endInput).stack = s.stack := rfl
@[simp] theorem State.mem_endInput (s : State) : (s.endInput).mem = s.mem := rfl
@[simp] theorem State.run_endInput (s : State) : (s.endInput).run = s.run := rfl
@[simp] theorem State.outSeq_endInput (s : State) : (s.endInput).outSeq = s.outSeq := rfl
@[simp] theorem State.inCount_endInput (s : State) : (s.endInput).inCount = s.inCount := rfl
@[simp] theorem State.input_endInput (s : State) : (s.endInput).input = { s.input with ended := true } := rfl
@[simp] theorem State.cfg_endInput (s : State) : (s.endInput).cfg = s.cfg := rfl

/-! ### Reading a register after an update -/

@[simp] theorem State.reg_setReg_same (s : State) (i : Reg) (v : Word) :
    (s.setReg i v).reg i = v := by
  simp [State.reg]

theorem State.reg_setReg_other (s : State) (i j : Reg) (v : Word) (h : j ≠ i) :
    (s.setReg i v).reg j = s.reg j := by
  have : i.val ≠ j.val := fun e => h (Fin.ext e.symm)
  simp [State.reg, this]

theorem State.reg_congr {s t : State} (h : t.regs = s.regs) (i : Reg) : t.reg i = s.reg i := by
  simp [State.reg, h]

@[simp] theorem State.reg_writeBack_same (s : State) (n : Nat) (i : Reg) (v : Word) :
    (s.writeBack n i v).reg i = v := State.reg_setReg_same _ i v

theorem State.reg_writeBack_other (s : State) (n : Nat) (i j : Reg) (v : Word) (h : j ≠ i) :
    (s.writeBack n i v).reg j = s.reg j := by
  rw [State.writeBack, State.reg_setReg_other _ _ _ _ h]
  rfl

@[simp] theorem State.reg_setPc (s : State) (target : Word) (j : Reg) :
    (s.setPc target).reg j = s.reg j := rfl

@[simp] theorem State.reg_advance (s : State) (n : Nat) (j : Reg) :
    (s.advance n).reg j = s.reg j := rfl

@[simp] theorem State.reg_setStack (s : State) (st : List Word) (j : Reg) :
    (s.setStack st).reg j = s.reg j := rfl

@[simp] theorem State.reg_setMem (s : State) (m : Memory) (j : Reg) :
    (s.setMem m).reg j = s.reg j := rfl

@[simp] theorem State.reg_setRun (s : State) (r : Run) (j : Reg) :
    (s.setRun r).reg j = s.reg j := rfl

@[simp] theorem State.reg_emit (s : State) (c : Byte) (j : Reg) :
    (s.emit c).reg j = s.reg j := rfl

@[simp] theorem State.reg_consume (s : State) (j : Reg) :
    (s.consume).reg j = s.reg j := rfl

@[simp] theorem State.reg_raise (s : State) (e : Cause) (info A : Word) (j : Reg) :
    (s.raise e info A).reg j = s.reg j := rfl

@[simp] theorem State.reg_haltFor (s : State) (reason : HaltReason) (j : Reg) :
    (s.haltFor reason).reg j = s.reg j := rfl

@[simp] theorem State.reg_fail (s : State) (n : Nat) (e : Cause) (info : Word) (j : Reg) :
    (s.fail n e info).reg j = s.reg j := rfl

@[simp] theorem State.reg_endInput (s : State) (j : Reg) :
    (s.endInput).reg j = s.reg j := rfl

/-! ### Resolving an operand -/

@[simp] theorem State.value_lit (s : State) (v : Word) : s.value (.lit v) = v := rfl

@[simp] theorem State.value_reg (s : State) (i : Reg) : s.value (.reg i) = s.reg i := rfl

/-- What a value operand yields depends on the registers alone (R86). -/
theorem State.value_congr {s t : State} (h : t.regs = s.regs) (a : Value) :
    t.value a = s.value a := by
  cases a with
  | lit v => rfl
  | reg i => exact State.reg_congr h i

end Sys2Proof.Machine
end

