-- ==== Sys2Proof/Laws/Ops.lean ====
section
/-! SUPPORT. One lemma for each shared operation that says once everything it can do. -/

namespace Sys2Proof.Machine

open Sys2Proof

/-! ### Memory (R52, R53) -/

theorem State.memRead_of_lt (s : State) {addr : Word} (h : addr.toNat < memCells) :
    s.memRead addr = some (s.mem.get addr.toNat) := if_pos h

theorem State.memRead_of_not_lt (s : State) {addr : Word} (h : ¬addr.toNat < memCells) :
    s.memRead addr = none := if_neg h

theorem State.memRead_eq_some {s : State} {addr v : Word} (h : s.memRead addr = some v) :
    addr.toNat < memCells ∧ v = s.mem.get addr.toNat := by
  by_cases ha : addr.toNat < memCells
  · rw [s.memRead_of_lt ha] at h
    exact ⟨ha, (Option.some.inj h).symm⟩
  · simp [s.memRead_of_not_lt ha] at h

theorem State.memWrite_of_lt (s : State) {addr : Word} (v : Word) (h : addr.toNat < memCells) :
    s.memWrite addr v = some (s.setMem (s.mem.set addr.toNat v)) := if_pos h

theorem State.memWrite_of_not_lt (s : State) {addr : Word} (v : Word)
    (h : ¬addr.toNat < memCells) : s.memWrite addr v = none := if_neg h

theorem State.memWrite_eq_some {s t : State} {addr v : Word} (h : s.memWrite addr v = some t) :
    addr.toNat < memCells ∧ t = s.setMem (s.mem.set addr.toNat v) := by
  by_cases ha : addr.toNat < memCells
  · rw [s.memWrite_of_lt v ha] at h
    exact ⟨ha, (Option.some.inj h).symm⟩
  · simp [s.memWrite_of_not_lt v ha] at h

/-! ### The stack (R31) -/

theorem State.push_of_not_full (s : State) (v : Word)
    (h : s.cfg.stackDepth ≠ some s.stack.length) :
    s.push v = some (s.setStack (v :: s.stack)) := if_neg h

theorem State.push_of_full (s : State) (v : Word)
    (h : s.cfg.stackDepth = some s.stack.length) : s.push v = none := if_pos h

theorem State.push_eq_some {s t : State} {v : Word} (h : s.push v = some t) :
    s.cfg.stackDepth ≠ some s.stack.length ∧ t = s.setStack (v :: s.stack) := by
  by_cases hf : s.cfg.stackDepth = some s.stack.length
  · simp [s.push_of_full v hf] at h
  · rw [s.push_of_not_full v hf] at h
    exact ⟨hf, (Option.some.inj h).symm⟩

/-- The depth is the information of `StackOverflowError` while 16 bits hold it (R210). -/
theorem State.depthInfo_toNat (s : State) (h : s.stack.length < 2 ^ 16) :
    s.depthInfo.toNat = s.stack.length := by
  rw [State.depthInfo, if_pos h, BitVec.toNat_ofNat, Nat.mod_eq_of_lt h]

/-! ### The input port and the slot of `in` (R191, R192, R194, R196) -/

theorem State.inChar_of_some {s : State} {c : Byte} (h : s.input.bytes[s.inCount]? = some c) :
    s.inChar = .char c := by simp [State.inChar, h]

theorem State.inChar_of_none {s : State} (h : s.input.bytes.length ≤ s.inCount) :
    s.inChar = if s.input.ended then .eof else .waiting := by
  simp [State.inChar, List.getElem?_eq_none h]

theorem State.inChar_eq_char {s : State} {c : Byte} (h : s.inChar = .char c) :
    s.input.bytes[s.inCount]? = some c := by
  unfold State.inChar at h
  split at h
  · cases h
    assumption
  · split at h <;> cases h

theorem State.writeSlot_eq_some {s t : State} {d : Dest} {v : Word}
    (h : s.writeSlot d v = some t) :
    (∃ i, d = .reg i ∧ t = s.setReg i v) ∨
      ∃ a, d = .mem a ∧ a.toNat < memCells ∧ t = s.setMem (s.mem.set a.toNat v) := by
  cases d with
  | reg i => exact .inl ⟨i, rfl, (Option.some.inj h).symm⟩
  | mem a => exact .inr ⟨a, rfl, State.memWrite_eq_some h⟩

/-! ### The words at `pc` (R80, R84) -/

/-- Word `k` at `pc` is the cell `pc + k`, as far as there are cells. -/
theorem State.window_getElem? (s : State) (k : Nat) :
    s.window[k]? = if k < maxLength ∧ s.pc.toNat + k < memCells
      then some (s.mem.get (s.pc.toNat + k)) else none :=
  Memory.wordsFrom_getElem? s.mem maxLength s.pc.toNat k

/-- The words at `pc` begin with `ws` where the cells from `pc` on hold them. -/
theorem State.window_eq_append (s : State) (ws : List Word) (hlen : ws.length ≤ maxLength)
    (h : ∀ k (hk : k < ws.length),
      s.pc.toNat + k < memCells ∧ s.mem.get (s.pc.toNat + k) = ws[k]) :
    s.window = ws ++ s.window.drop ws.length := by
  apply List.ext_getElem?
  intro k
  by_cases hk : k < ws.length
  · rw [List.getElem?_append_left hk, s.window_getElem?, if_pos ⟨by omega, (h k hk).1⟩,
      (h k hk).2, List.getElem?_eq_getElem hk]
  · rw [List.getElem?_append_right (by omega), List.getElem?_drop]
    congr 1
    omega

/-- Where the words at `pc` are read from is `pc` and memory alone. -/
theorem State.window_congr {s t : State} (hm : t.mem = s.mem) (hp : t.pc = s.pc) :
    t.window = s.window := by
  simp [State.window, hm, hp]

/-! ### Taking the fault of a rejection (R214, R220) -/

/-- A rejection changes `pc` and the run state alone. -/
theorem State.raiseReject_eq (s : State) (r : Reject) :
    ∃ n e info, s.raiseReject r = (s.advance n).raise e info s.pc := by
  cases r <;> exact ⟨_, _, _, rfl⟩

end Sys2Proof.Machine
end

