-- ==== Sys2Proof/Laws/Step.lean ====
section
/-! SUPPORT. What a step can do, said once (R85, R37). -/

namespace Sys2Proof.Machine

open Sys2Proof

theorem step_of_decode {s : State} {i : Instr} {rest : List Word} (hr : s.run = .running)
    (hd : decode s.window = .ok (i, rest)) : step s = exec i s := by
  simp [step, hr, hd]

theorem step_of_reject {s : State} {r : Reject} (hr : s.run = .running)
    (hd : decode s.window = .error r) : step s = .next (s.raiseReject r) := by
  simp [step, hr, hd]

/-- A step that answers a next state started RUNNING, and either ran the instruction at `pc` or took
the fault of words that are none. -/
theorem step_eq_next {s t : State} (h : step s = .next t) :
    s.run = .running ∧
      ((∃ i rest, decode s.window = .ok (i, rest) ∧ exec i s = .next t) ∨
        ∃ r, decode s.window = .error r ∧ t = s.raiseReject r) := by
  cases hr : s.run with
  | halted reason => simp [step, hr] at h
  | faulted e info A => simp [step, hr] at h
  | running =>
    refine ⟨rfl, ?_⟩
    cases hd : decode s.window with
    | error r =>
      rw [step_of_reject hr hd] at h
      exact .inr ⟨r, rfl, (Host.Outcome.next.inj h).symm⟩
    | ok p => exact .inl ⟨p.1, p.2, rfl, step_of_decode hr hd ▸ h⟩

end Sys2Proof.Machine
end

