-- ==== Sys2Proof/Laws/Exec.lean ====
section
/-! SUPPORT. What an instruction can do, said once: the effects that `exec` can have when it answers a
next state. Facts about every step go through this instead of unfolding the meanings. -/

namespace Sys2Proof.Machine

open Sys2Proof

/-- `Effect s i t`: executing `i` in `s` can give the next state `t`, with what is then known of `i`
and `s`. -/
inductive Effect (s : State) : Instr → State → Prop where
  /-- A fault of `Execute` (R220). -/
  | faulted {i : Instr} (e : Cause) (info : Word) : Effect s i (s.fail (encode i).length e info)
  /-- `halt` (R110). -/
  | halted : Effect s .halt ((s.advance 1).haltFor .haltInstruction)
  /-- `noop` (R111). -/
  | nothing : Effect s .noop (s.advance 1)
  /-- An instruction other than `pop` and `in` writes its target register and falls through. -/
  | wrote {i : Instr} {r : Reg} (v : Word) (ht : targetReg i = some r) (hp : ∀ x, i ≠ .pop x)
      (hi : ∀ d, i ≠ .inp d) (hn : redirect s i = none) :
      Effect s i (s.writeBack (encode i).length r v)
  /-- `push` on a stack that is not full (R124). -/
  | pushed (a : Value) : Effect s (.push a) ((s.advance 2).setStack (s.value a :: s.stack))
  /-- `pop` of a stack that is not empty (R126). -/
  | popped (r : Reg) {v : Word} {rest : List Word} (hs : s.stack = v :: rest) :
      Effect s (.pop r) ((s.setStack rest).writeBack 2 r v)
  /-- `jmp`, or `jt` or `jf` with its condition (R140, R142, R144). -/
  | jumped {i : Instr} {w : Word} (hr : redirect s i = some w) (hc : ∀ a, i ≠ .call a)
      (hret : i ≠ .ret) : Effect s i ((s.advance (encode i).length).setPc w)
  /-- `jt` or `jf` without its condition (R142, R144). -/
  | notTaken {i : Instr} (hn : redirect s i = none) (hi : ∃ a b, i = .jt a b ∨ i = .jf a b) :
      Effect s i (s.advance (encode i).length)
  /-- `wmem` to a valid address (R181). -/
  | stored (a b : Value) (ha : (s.value a).toNat < memCells) :
      Effect s (.wmem a b) ((s.advance 3).setMem (s.mem.set (s.value a).toNat (s.value b)))
  /-- `call` on a stack that is not full (R148). -/
  | called (a : Value) :
      Effect s (.call a) (((s.advance 2).setStack ((s.pc + 2) :: s.stack)).setPc (s.value a))
  /-- `ret` on a stack that is not empty (R150). -/
  | returned {v : Word} {rest : List Word} (hs : s.stack = v :: rest) :
      Effect s .ret (((s.advance 1).setStack rest).setPc v)
  /-- `ret` on an empty stack (R150). -/
  | retEnded (hs : s.stack = []) : Effect s .ret ((s.advance 1).haltFor .retEmptyStack)
  /-- `out` of a value up to 255 (R195). -/
  | emitted (a : Value) (ha : (s.value a).toNat ≤ charMax) :
      Effect s (.out a) ((s.advance 2).emit ((s.value a).setWidth 8))
  /-- `in` at the end of the input (R196). -/
  | inputEnded (d : Dest) (hc : s.inChar = .eof) :
      Effect s (.inp d) ((s.advance 2).haltFor .inputExhausted)
  /-- `in` of a character to a register (R196). -/
  | readToReg (r : Reg) {c : Byte} (hc : s.inChar = .char c) :
      Effect s (.inp (.reg r)) (((s.advance 2).setReg r (c.setWidth 16)).consume)
  /-- `in` of a character to a memory cell (R196). -/
  | readToMem (a : Word) {c : Byte} (hc : s.inChar = .char c) (ha : a.toNat < memCells) :
      Effect s (.inp (.mem a)) (((s.advance 2).setMem (s.mem.set a.toNat (c.setWidth 16))).consume)

theorem execPush_effect {a : Value} {s t : State} (h : execPush a s = .next t) :
    Effect s (.push a) t := by
  unfold execPush at h
  split at h
  · rename_i hp
    obtain rfl := Host.Outcome.next.inj h
    obtain ⟨-, rfl⟩ := State.push_eq_some hp
    exact .pushed a
  · obtain rfl := Host.Outcome.next.inj h
    exact .faulted (i := .push a) _ _

theorem execCall_effect {a : Value} {s t : State} (h : execCall a s = .next t) :
    Effect s (.call a) t := by
  unfold execCall at h
  split at h
  · rename_i hp
    obtain rfl := Host.Outcome.next.inj h
    obtain ⟨-, rfl⟩ := State.push_eq_some hp
    exact .called a
  · obtain rfl := Host.Outcome.next.inj h
    exact .faulted (i := .call a) _ _

theorem execPop_effect {r : Reg} {s t : State} (h : execPop r s = .next t) :
    Effect s (.pop r) t := by
  unfold execPop at h
  split at h <;> obtain rfl := Host.Outcome.next.inj h
  · exact .faulted (i := .pop r) _ _
  · exact .popped r ‹_›

theorem execRet_effect {s t : State} (h : execRet s = .next t) : Effect s .ret t := by
  unfold execRet at h
  split at h <;> obtain rfl := Host.Outcome.next.inj h
  · exact .retEnded ‹_›
  · exact .returned ‹_›

theorem execWmem_effect {a b : Value} {s t : State} (h : execWmem a b s = .next t) :
    Effect s (.wmem a b) t := by
  unfold execWmem at h
  split at h
  · rename_i hp
    obtain rfl := Host.Outcome.next.inj h
    obtain ⟨ha, rfl⟩ := State.memWrite_eq_some hp
    exact .stored a b ha
  · obtain rfl := Host.Outcome.next.inj h
    exact .faulted (i := .wmem a b) _ _

theorem execRmem_effect {r : Reg} {a : Value} {s t : State} (h : execRmem r a s = .next t) :
    Effect s (.rmem r a) t := by
  unfold execRmem at h
  split at h <;> obtain rfl := Host.Outcome.next.inj h
  · exact .wrote (i := .rmem r a) _ rfl (by simp) (by simp) rfl
  · exact .faulted (i := .rmem r a) _ _

theorem execMod_effect {r : Reg} {a b : Value} {s t : State} (h : execMod r a b s = .next t) :
    Effect s (.mod r a b) t := by
  unfold execMod at h
  split at h <;> obtain rfl := Host.Outcome.next.inj h
  · exact .faulted (i := .mod r a b) _ _
  · exact .wrote (i := .mod r a b) _ rfl (by simp) (by simp) rfl

theorem execJt_effect {a b : Value} {s t : State} (h : execJt a b s = .next t) :
    Effect s (.jt a b) t := by
  unfold execJt at h
  split at h <;> rename_i hc <;> obtain rfl := Host.Outcome.next.inj h
  · exact .jumped (i := .jt a b) (if_pos hc) (by simp) (by simp)
  · exact .notTaken (i := .jt a b) (if_neg hc) ⟨a, b, .inl rfl⟩

theorem execJf_effect {a b : Value} {s t : State} (h : execJf a b s = .next t) :
    Effect s (.jf a b) t := by
  unfold execJf at h
  split at h <;> rename_i hc <;> obtain rfl := Host.Outcome.next.inj h
  · exact .jumped (i := .jf a b) (if_pos hc) (by simp) (by simp)
  · exact .notTaken (i := .jf a b) (if_neg hc) ⟨a, b, .inr rfl⟩

theorem execOut_effect {a : Value} {s t : State} (h : execOut a s = .next t) :
    Effect s (.out a) t := by
  unfold execOut at h
  split at h <;> rename_i hc <;> obtain rfl := Host.Outcome.next.inj h
  · exact .faulted (i := .out a) _ _
  · exact .emitted a (Nat.le_of_not_lt hc)

theorem execIn_effect {d : Dest} {s t : State} (h : execIn d s = .next t) :
    Effect s (.inp d) t := by
  unfold execIn at h
  split at h
  · cases h
  · obtain rfl := Host.Outcome.next.inj h
    exact .inputEnded d ‹_›
  · rename_i c hc
    split at h
    · rename_i hw
      obtain rfl := Host.Outcome.next.inj h
      obtain ⟨r, rfl, rfl⟩ | ⟨a, rfl, ha, rfl⟩ := State.writeSlot_eq_some hw
      · exact .readToReg r hc
      · exact .readToMem a hc ha
    · obtain rfl := Host.Outcome.next.inj h
      exact .faulted (i := .inp d) _ _

/-- Every next state that `exec` answers is one of the effects. -/
theorem exec_effect {i : Instr} {s t : State} (h : exec i s = .next t) : Effect s i t := by
  cases i with
  | halt =>
    obtain rfl := Host.Outcome.next.inj h
    exact .halted
  | noop =>
    obtain rfl := Host.Outcome.next.inj h
    exact .nothing
  | jmp a =>
    obtain rfl := Host.Outcome.next.inj h
    exact .jumped (i := .jmp a) rfl (by simp) (by simp)
  | set r a =>
    obtain rfl := Host.Outcome.next.inj h
    exact .wrote (i := .set r a) _ rfl (by simp) (by simp) rfl
  | eq r a b =>
    obtain rfl := Host.Outcome.next.inj h
    exact .wrote (i := .eq r a b) _ rfl (by simp) (by simp) rfl
  | gt r a b =>
    obtain rfl := Host.Outcome.next.inj h
    exact .wrote (i := .gt r a b) _ rfl (by simp) (by simp) rfl
  | add r a b =>
    obtain rfl := Host.Outcome.next.inj h
    exact .wrote (i := .add r a b) _ rfl (by simp) (by simp) rfl
  | mult r a b =>
    obtain rfl := Host.Outcome.next.inj h
    exact .wrote (i := .mult r a b) _ rfl (by simp) (by simp) rfl
  | and r a b =>
    obtain rfl := Host.Outcome.next.inj h
    exact .wrote (i := .and r a b) _ rfl (by simp) (by simp) rfl
  | or r a b =>
    obtain rfl := Host.Outcome.next.inj h
    exact .wrote (i := .or r a b) _ rfl (by simp) (by simp) rfl
  | not r a =>
    obtain rfl := Host.Outcome.next.inj h
    exact .wrote (i := .not r a) _ rfl (by simp) (by simp) rfl
  | mod r a b => exact execMod_effect h
  | push a => exact execPush_effect h
  | pop r => exact execPop_effect h
  | jt a b => exact execJt_effect h
  | jf a b => exact execJf_effect h
  | rmem r a => exact execRmem_effect h
  | wmem a b => exact execWmem_effect h
  | call a => exact execCall_effect h
  | ret => exact execRet_effect h
  | out a => exact execOut_effect h
  | inp d => exact execIn_effect h

/-- A step that answers a next state started RUNNING, and either had one of the effects of the
instruction at `pc` or took the fault of words that are none. -/
theorem step_effect {s t : State} (h : step s = .next t) :
    s.run = .running ∧
      ((∃ i rest, decode s.window = .ok (i, rest) ∧ Effect s i t) ∨
        ∃ n e info, t = (s.advance n).raise e info s.pc) := by
  obtain ⟨hr, ⟨i, rest, hd, he⟩ | ⟨r, -, rfl⟩⟩ := step_eq_next h
  · exact ⟨hr, .inl ⟨i, rest, hd, exec_effect he⟩⟩
  · exact ⟨hr, .inr (s.raiseReject_eq r)⟩

end Sys2Proof.Machine
end

