-- ==== Sys2Proof/Laws/Frame.lean ====
section
/-! SUPPORT. The frames of the shared endings: what a fall-through with one register written, a fault
of `Execute` and a clean end leave unchanged. -/

namespace Sys2Proof.Machine

open Sys2Proof

/-- Nothing is written where the register file and the memory list are the same. -/
theorem KeepsBut.of_eq {s t : State} (hr : t.regs = s.regs) (hm : t.mem = s.mem)
    (hi : t.input = s.input) (hc : t.cfg = s.cfg) : KeepsBut [] [] s t :=
  ⟨fun j _ => State.reg_congr hr j, fun a _ => by rw [hm], hi, hc⟩

/-- The advance of `pc` and a new run state leave the data state alone. -/
theorem State.setRun_advance_keepsData (s : State) (n : Nat) (r : Run) :
    KeepsData s ((s.advance n).setRun r) :=
  ⟨.of_eq rfl rfl rfl rfl, rfl, rfl, rfl⟩

/-- A fault of `Execute` leaves the data state alone (R220). -/
theorem State.fail_keepsData (s : State) (n : Nat) (e : Cause) (info : Word) :
    KeepsData s (s.fail n e info) :=
  s.setRun_advance_keepsData n (.faulted e info s.pc)

/-- A clean end leaves the data state alone (R36). -/
theorem State.haltFor_keepsData (s : State) (n : Nat) (reason : HaltReason) :
    KeepsData s ((s.advance n).haltFor reason) :=
  s.setRun_advance_keepsData n (.halted reason)

/-- The fault of words that are no instruction leaves the data state alone (R220). -/
theorem State.raiseReject_keepsData (s : State) (r : Reject) : KeepsData s (s.raiseReject r) := by
  obtain ⟨n, e, info, h⟩ := s.raiseReject_eq r
  exact h ▸ s.setRun_advance_keepsData n (.faulted e info s.pc)

/-- The advance of `pc` and a jump leave the data state alone (R27). -/
theorem State.setPc_keepsData (s : State) (target : Word) : KeepsData s (s.setPc target) :=
  ⟨.of_eq rfl rfl rfl rfl, rfl, rfl, rfl⟩

/-- `writeBack` writes its register and nothing else but the advance of `pc`. -/
theorem State.writeBack_onlyWritesReg (s : State) (n : Nat) (t : Reg) (v : Word) :
    OnlyWritesReg t n s (s.writeBack n t v) :=
  ⟨rfl, ⟨fun j h => s.reg_writeBack_other n t j v (by simpa using h), fun _ _ => rfl, rfl, rfl⟩,
    rfl, rfl, rfl, rfl⟩

/-- A write of one cell leaves the registers and every other cell alone (R57). -/
theorem State.setMem_keepsBut (s : State) (a : Nat) (v : Word) :
    KeepsBut [] [a] s (s.setMem (s.mem.set a v)) :=
  ⟨fun _ _ => rfl, fun _ h => Memory.get_set_other s.mem v (by simpa using h), rfl, rfl⟩

end Sys2Proof.Machine
end

