-- ==== Sys2Proof/Laws/PerInstr.lean ====
section
/-! SUPPORT. Families of facts about every instruction as a term, one lemma for each constructor. -/

namespace Sys2Proof.Laws

open Sys2Proof Sys2Proof.Machine

/-- The words of an instruction have the shape of its row in the tables of R83 and R92: an opcode word
0..21, then one operand word for each operand kind, at most four words in all, and where the
instruction can be encoded every operand word is one that its kind accepts. -/
def EncodingShape.Statement (i : Instr) : Prop :=
  ∃ op ws kinds, encode i = op :: ws ∧ opcodeRows[op.toNat]? = some kinds ∧
    ws.length = kinds.length ∧ ws.length < maxLength ∧
    (i.wf = true → ∀ k ∈ ws.zip kinds, k.2.accepts k.1 = true)

theorem accepts_T_iff (w : Word) :
    Kind.T.accepts w = true ↔ 32768 ≤ w.toNat ∧ w.toNat ≤ 32775 := by
  simp [Kind.accepts]

theorem accepts_V_iff (w : Word) : Kind.V.accepts w = true ↔ w.toNat ≤ 32775 := by
  simp [Kind.accepts]

theorem accepts_D_iff (w : Word) : Kind.D.accepts w = true ↔ w.toNat ≤ 32775 := by
  simp [Kind.accepts]

theorem accepts_T (t : Reg) : Kind.T.accepts (encodeReg t) = true := by
  rw [accepts_T_iff, encodeReg_toNat]
  simp only [regBase]
  omega

theorem accepts_V (a : Value) (h : a.wf = true) : Kind.V.accepts (encodeValue a) = true := by
  rw [accepts_V_iff]
  cases a with
  | lit v =>
    have : v.toNat < regBase := by simpa [Value.wf] using h
    simp only [encodeValue, regBase] at *
    omega
  | reg i => exact ((accepts_T_iff _).1 (accepts_T i)).2

theorem accepts_D (d : Dest) (h : d.wf = true) : Kind.D.accepts (encodeDest d) = true := by
  rw [accepts_D_iff]
  cases d with
  | mem a =>
    have : a.toNat < memCells := by simpa [Dest.wf] using h
    simp only [encodeDest, memCells] at *
    omega
  | reg i => exact ((accepts_T_iff _).1 (accepts_T i)).2

theorem EncodingShape.halt : EncodingShape.Statement .halt :=
  ⟨_, _, _, rfl, rfl, rfl, by simp [maxLength], by
    simp +contextual [Instr.wf]⟩

theorem EncodingShape.set (t : Reg) (a : Value) : EncodingShape.Statement (.set t a) :=
  ⟨_, _, _, rfl, rfl, rfl, by simp [maxLength], by
    simp +contextual [Instr.wf, accepts_T, accepts_V]⟩

theorem EncodingShape.push (a : Value) : EncodingShape.Statement (.push a) :=
  ⟨_, _, _, rfl, rfl, rfl, by simp [maxLength], by
    simp +contextual [Instr.wf, accepts_V]⟩

theorem EncodingShape.pop (t : Reg) : EncodingShape.Statement (.pop t) :=
  ⟨_, _, _, rfl, rfl, rfl, by simp [maxLength], by
    simp +contextual [Instr.wf, accepts_T]⟩

theorem EncodingShape.eq (t : Reg) (a : Value) (b : Value) : EncodingShape.Statement (.eq t a b) :=
  ⟨_, _, _, rfl, rfl, rfl, by simp [maxLength], by
    simp +contextual [Instr.wf, accepts_T, accepts_V]⟩

theorem EncodingShape.gt (t : Reg) (a : Value) (b : Value) : EncodingShape.Statement (.gt t a b) :=
  ⟨_, _, _, rfl, rfl, rfl, by simp [maxLength], by
    simp +contextual [Instr.wf, accepts_T, accepts_V]⟩

theorem EncodingShape.jmp (a : Value) : EncodingShape.Statement (.jmp a) :=
  ⟨_, _, _, rfl, rfl, rfl, by simp [maxLength], by
    simp +contextual [Instr.wf, accepts_V]⟩

theorem EncodingShape.jt (a : Value) (b : Value) : EncodingShape.Statement (.jt a b) :=
  ⟨_, _, _, rfl, rfl, rfl, by simp [maxLength], by
    simp +contextual [Instr.wf, accepts_V]⟩

theorem EncodingShape.jf (a : Value) (b : Value) : EncodingShape.Statement (.jf a b) :=
  ⟨_, _, _, rfl, rfl, rfl, by simp [maxLength], by
    simp +contextual [Instr.wf, accepts_V]⟩

theorem EncodingShape.add (t : Reg) (a : Value) (b : Value) : EncodingShape.Statement (.add t a b) :=
  ⟨_, _, _, rfl, rfl, rfl, by simp [maxLength], by
    simp +contextual [Instr.wf, accepts_T, accepts_V]⟩

theorem EncodingShape.mult (t : Reg) (a : Value) (b : Value) : EncodingShape.Statement (.mult t a b) :=
  ⟨_, _, _, rfl, rfl, rfl, by simp [maxLength], by
    simp +contextual [Instr.wf, accepts_T, accepts_V]⟩

theorem EncodingShape.mod (t : Reg) (a : Value) (b : Value) : EncodingShape.Statement (.mod t a b) :=
  ⟨_, _, _, rfl, rfl, rfl, by simp [maxLength], by
    simp +contextual [Instr.wf, accepts_T, accepts_V]⟩

theorem EncodingShape.and (t : Reg) (a : Value) (b : Value) : EncodingShape.Statement (.and t a b) :=
  ⟨_, _, _, rfl, rfl, rfl, by simp [maxLength], by
    simp +contextual [Instr.wf, accepts_T, accepts_V]⟩

theorem EncodingShape.or (t : Reg) (a : Value) (b : Value) : EncodingShape.Statement (.or t a b) :=
  ⟨_, _, _, rfl, rfl, rfl, by simp [maxLength], by
    simp +contextual [Instr.wf, accepts_T, accepts_V]⟩

theorem EncodingShape.not (t : Reg) (a : Value) : EncodingShape.Statement (.not t a) :=
  ⟨_, _, _, rfl, rfl, rfl, by simp [maxLength], by
    simp +contextual [Instr.wf, accepts_T, accepts_V]⟩

theorem EncodingShape.rmem (t : Reg) (a : Value) : EncodingShape.Statement (.rmem t a) :=
  ⟨_, _, _, rfl, rfl, rfl, by simp [maxLength], by
    simp +contextual [Instr.wf, accepts_T, accepts_V]⟩

theorem EncodingShape.wmem (a : Value) (b : Value) : EncodingShape.Statement (.wmem a b) :=
  ⟨_, _, _, rfl, rfl, rfl, by simp [maxLength], by
    simp +contextual [Instr.wf, accepts_V]⟩

theorem EncodingShape.call (a : Value) : EncodingShape.Statement (.call a) :=
  ⟨_, _, _, rfl, rfl, rfl, by simp [maxLength], by
    simp +contextual [Instr.wf, accepts_V]⟩

theorem EncodingShape.ret : EncodingShape.Statement .ret :=
  ⟨_, _, _, rfl, rfl, rfl, by simp [maxLength], by
    simp +contextual [Instr.wf]⟩

theorem EncodingShape.out (a : Value) : EncodingShape.Statement (.out a) :=
  ⟨_, _, _, rfl, rfl, rfl, by simp [maxLength], by
    simp +contextual [Instr.wf, accepts_V]⟩

theorem EncodingShape.inp (d : Dest) : EncodingShape.Statement (.inp d) :=
  ⟨_, _, _, rfl, rfl, rfl, by simp [maxLength], by
    simp +contextual [Instr.wf, accepts_D]⟩

theorem EncodingShape.noop : EncodingShape.Statement .noop :=
  ⟨_, _, _, rfl, rfl, rfl, by simp [maxLength], by
    simp +contextual [Instr.wf]⟩

end Sys2Proof.Laws
end

