-- ==== Sys2Proof/Tests/Slice0.lean ====
section
/-! SUPPORT. Small tests: expected values are the spec's own examples and vectors (the rule of each
instruction and 95_test_vectors.md), or calculated by hand from its rules; and for each statement with
hypotheses a state and operands that meet them all. -/

namespace Sys2Proof.Tests

open Sys2Proof Sys2Proof.Machine

/-- The reset state with the words in memory from `pc` on. -/
def at_ (pc : Word) (ws : List Word) : State :=
  { State.reset with pc := pc, mem := Memory.place [] pc.toNat ws }

/-- The reset state with the words at address 0. -/
def image (ws : List Word) : State := at_ 0 ws

/-- What is seen of the next state, if there is one. -/
def seen {α : Type} (f : State → α) : Host.Outcome State Fault Refusal → Option α
  | .next s => some (f s)
  | .fault _ => none
  | .refused _ => none

/-- A finite input that has ended. -/
def inputOf (bs : List Byte) : InputStream := { bytes := bs, ended := true }

/-! ### Well-formedness: an ill-formed term for each check -/

theorem test_wf_literal : (Value.lit 32768).wf = false := by decide
theorem test_wf_destination : (Dest.mem 32768).wf = false := by decide
theorem test_wf_set : (Instr.set 0 (.lit 32768)).wf = false := by decide
theorem test_wf_not : (Instr.not 0 (.lit 65535)).wf = false := by decide
theorem test_wf_rmem : (Instr.rmem 0 (.lit 32776)).wf = false := by decide
theorem test_wf_one_value :
    (Instr.push (.lit 32768)).wf = false ∧ (Instr.jmp (.lit 32768)).wf = false ∧
      (Instr.call (.lit 32768)).wf = false ∧ (Instr.out (.lit 32768)).wf = false := by decide
theorem test_wf_two_values :
    (Instr.jt (.lit 32768) (.lit 0)).wf = false ∧ (Instr.jf (.lit 0) (.lit 32768)).wf = false ∧
      (Instr.wmem (.lit 0) (.lit 32768)).wf = false := by decide
theorem test_wf_first_source :
    (Instr.eq 0 (.lit 32768) (.lit 0)).wf = false ∧ (Instr.gt 0 (.lit 32768) (.lit 0)).wf = false ∧
      (Instr.add 0 (.lit 32768) (.lit 0)).wf = false ∧
      (Instr.mult 0 (.lit 32768) (.lit 0)).wf = false := by decide
theorem test_wf_second_source :
    (Instr.mod 0 (.lit 0) (.lit 32768)).wf = false ∧ (Instr.and 0 (.lit 0) (.lit 32768)).wf = false ∧
      (Instr.or 0 (.lit 0) (.lit 32768)).wf = false := by decide
theorem test_wf_in : (Instr.inp (.mem 40000)).wf = false := by decide
theorem test_wf_accepts :
    (Instr.wmem (.lit 32767) (.reg 7)).wf = true ∧ (Instr.inp (.mem 32767)).wf = true := by decide

/-! ### Decoding: one word list for each constructor, from the examples of the rules -/

theorem test_decode_halt : decode [0] = .ok (.halt, []) := by rfl
theorem test_decode_set : decode [1, 32768, 4] = .ok (.set 0 (.lit 4), []) := by rfl
theorem test_decode_push : decode [2, 5] = .ok (.push (.lit 5), []) := by rfl
theorem test_decode_pop : decode [3, 32769] = .ok (.pop 1, []) := by rfl
theorem test_decode_eq : decode [4, 32771, 32770, 5] = .ok (.eq 3 (.reg 2) (.lit 5), []) := by rfl
theorem test_decode_gt : decode [5, 32768, 7, 3] = .ok (.gt 0 (.lit 7) (.lit 3), []) := by rfl
theorem test_decode_jmp : decode [6, 100] = .ok (.jmp (.lit 100), []) := by rfl
theorem test_decode_jt : decode [7, 32768, 10] = .ok (.jt (.reg 0) (.lit 10), []) := by rfl
theorem test_decode_jf : decode [8, 0, 200] = .ok (.jf (.lit 0) (.lit 200), []) := by rfl
theorem test_decode_add : decode [9, 32770, 32768, 32769] = .ok (.add 2 (.reg 0) (.reg 1), []) := by
  rfl
theorem test_decode_mult : decode [10, 32768, 300, 200] = .ok (.mult 0 (.lit 300) (.lit 200), []) := by
  rfl
theorem test_decode_mod : decode [11, 32768, 17, 5] = .ok (.mod 0 (.lit 17) (.lit 5), []) := by rfl
theorem test_decode_and : decode [12, 32768, 12, 10] = .ok (.and 0 (.lit 12) (.lit 10), []) := by rfl
theorem test_decode_or : decode [13, 32768, 12, 10] = .ok (.or 0 (.lit 12) (.lit 10), []) := by rfl
theorem test_decode_not : decode [14, 32768, 5] = .ok (.not 0 (.lit 5), []) := by rfl
theorem test_decode_rmem : decode [15, 32768, 100] = .ok (.rmem 0 (.lit 100), []) := by rfl
theorem test_decode_wmem : decode [16, 100, 7] = .ok (.wmem (.lit 100) (.lit 7), []) := by rfl
theorem test_decode_call : decode [17, 50] = .ok (.call (.lit 50), []) := by rfl
theorem test_decode_ret : decode [18] = .ok (.ret, []) := by rfl
theorem test_decode_out : decode [19, 65] = .ok (.out (.lit 65), []) := by rfl
theorem test_decode_in :
    decode [20, 32769] = .ok (.inp (.reg 1), []) ∧ decode [20, 300] = .ok (.inp (.mem 300), []) := by
  exact ⟨rfl, rfl⟩
theorem test_decode_noop : decode [21] = .ok (.noop, []) := by rfl

/-- Bit by bit from R98: `w[15] = 1` and `w[14:3] = 0` is register `w[2:0]`; a literal has
`w[15] = 0`. -/
theorem test_decode_bits :
    decode [0b0000000000001001, 0b1000000000000101, 0b0111111111111111, 0b1000000000000010] =
      .ok (.add 5 (.lit 32767) (.reg 2), []) := by rfl

/-- The rejections of 95_test_vectors.md section 2.1. -/
theorem test_decode_rejects :
    decode [22] = .error (.unknownOpcode 22) ∧ decode [32768] = .error (.unknownOpcode 32768) ∧
      decode [4, 0, 40000, 50000] = .error (.badOperand 1 0) ∧
      decode [11, 5, 7, 0] = .error (.badOperand 1 5) ∧
      decode [8, 1, 40000] = .error (.badOperand 2 40000) ∧
      decode [1, 32768] = .error (.truncated 2) := by
  exact ⟨rfl, rfl, rfl, rfl, rfl, rfl⟩

theorem test_decodeTableWord :
    decodeTableWord 16 18 = some .ret ∧ decodeTableWord 32 (65 * 65536 + 19) = some (.out (.lit 65)) ∧
      decodeTableWord 16 (65 * 65536 + 19) = some (.out (.lit 0)) ∧
      decodeTableWord 16 1 = none := by decide

/-! ### The instructions, one step each (95_test_vectors.md section 2) -/

theorem test_halt : seen (fun s => (s.run, s.pc)) (step (at_ 32767 [0])) =
    some (.halted .haltInstruction, 32768) := by decide
theorem test_noop : seen (fun s => (s.run, s.pc)) (step (at_ 32767 [21])) =
    some (.running, 32768) := by decide
theorem test_set : seen (fun s => (s.reg 1, s.pc))
    (step ((image [1, 32769, 32768]).setReg 0 40000)) = some (40000, 3) := by decide
theorem test_push : seen (fun s => (s.stack, s.reg 3))
    (step (((image [2, 32771]).setReg 3 8).setStack [1])) = some ([8, 1], 8) := by decide
theorem test_push_full : seen (fun s => (s.run, s.pc, s.stack))
    (step { at_ 2 [2, 2] with stack := [1], cfg := { stackDepth := some 1 } }) =
    some (.faulted .stackOverflowError 1 2, 4, [1]) := by decide
theorem test_pop : seen (fun s => (s.reg 1, s.stack)) (step ((image [3, 32769]).setStack [6, 5])) =
    some (6, [5]) := by decide
theorem test_pop_empty : seen (fun s => (s.run, s.pc)) (step (image [3, 32768])) =
    some (.faulted .stackUnderflowError 0 0, 2) := by decide
theorem test_eq_full_width : seen (fun s => s.reg 0)
    (step ((image [4, 32768, 32769, 0]).setReg 1 32768)) = some 0 := by decide
theorem test_eq_same_register : seen (fun s => s.reg 0)
    (step ((image [4, 32768, 32768, 32768]).setReg 0 7)) = some 1 := by decide
theorem test_gt_strict : seen (fun s => s.reg 0) (step ((image [5, 32768, 3, 3]).setReg 0 9)) =
    some 0 := by decide
theorem test_gt_unsigned : seen (fun s => s.reg 0)
    (step ((image [5, 32768, 32769, 32767]).setReg 1 32768)) = some 1 := by decide
theorem test_jmp : seen (fun s => (s.pc, s.run)) (step ((image [6, 32768]).setReg 0 40000)) =
    some (40000, .running) := by decide
theorem test_jt : seen (fun s => s.pc) (step ((image [7, 32768, 10]).setReg 0 32768)) = some 10 ∧
    seen (fun s => s.pc) (step (image [7, 0, 10])) = some 3 := by decide
theorem test_jf : seen (fun s => s.pc) (step (image [8, 0, 10])) = some 10 ∧
    seen (fun s => s.pc) (step (image [8, 1, 10])) = some 3 := by decide
theorem test_add : seen (fun s => s.reg 0)
    (step ((image [9, 32768, 32768, 32768]).setReg 0 20000)) = some 7232 := by decide
theorem test_add_high : seen (fun s => s.reg 2)
    (step ((image [9, 32770, 32768, 32768]).setReg 0 65535)) = some 32766 := by decide
theorem test_mult : seen (fun s => s.reg 0) (step (image [10, 32768, 32767, 32767])) =
    some 1 := by decide
theorem test_mult_wraps : seen (fun s => s.reg 0) (step (image [10, 32768, 300, 200])) =
    some 27232 := by decide
theorem test_mod : seen (fun s => s.reg 0) (step (image [11, 32768, 17, 5])) = some 2 := by decide
theorem test_mod_zero : seen (fun s => (s.run, s.pc, s.reg 0, s.outSeq))
    (step (image [11, 32768, 7, 0])) = some (.faulted .divisionError 7 0, 4, 0, []) := by decide
theorem test_and : seen (fun s => s.reg 1)
    (step ((image [12, 32769, 32768, 32768]).setReg 0 32768)) = some 32768 := by decide
theorem test_or : seen (fun s => s.reg 1) (step ((image [13, 32769, 32768, 1]).setReg 0 32768)) =
    some 32769 := by decide
theorem test_not : seen (fun s => s.reg 0) (step (image [14, 32768, 21845])) = some 10922 := by decide
theorem test_not_high : seen (fun s => s.reg 1) (step ((image [14, 32769, 32768]).setReg 0 32768)) =
    some 32767 := by decide
theorem test_rmem : seen (fun s => s.reg 0) (step (image [15, 32768, 1])) = some 32768 := by decide
theorem test_rmem_bounds : seen (fun s => (s.run, s.pc, s.reg 0))
    (step ((image [15, 32768, 32769]).setReg 1 32768)) =
    some (.faulted .memoryBoundsError 32768 0, 3, 0) := by decide
theorem test_wmem : seen (fun s => (s.mem.get 200, s.reg 0))
    (step ((image [16, 32768, 5]).setReg 0 200)) = some (5, 200) := by decide
theorem test_wmem_own_words : seen (fun s => (s.mem.get 0, s.pc, s.run)) (step (image [16, 0, 21])) =
    some (21, 3, .running) := by decide
theorem test_call : seen (fun s => (s.stack, s.pc)) (step ((image [17, 32768]).setReg 0 7)) =
    some ([2], 7) := by decide
theorem test_call_top : seen (fun s => (s.stack, s.pc)) (step (at_ 32766 [17, 5])) =
    some ([32768], 5) := by decide
theorem test_ret : seen (fun s => (s.stack, s.pc)) (step ((at_ 60 [18]).setStack [12, 3])) =
    some ([3], 12) := by decide
theorem test_ret_empty : seen (fun s => (s.run, s.pc)) (step (image [18])) =
    some (.halted .retEmptyStack, 1) := by decide
theorem test_out : seen (fun s => (s.outSeq, s.pc)) (step ((image [19, 255]).emit 7)) =
    some ([7, 255], 2) := by decide
theorem test_out_range : seen (fun s => (s.run, s.pc, s.outSeq)) (step (image [19, 256])) =
    some (.faulted .outOfRangeError 256 0, 2, []) := by decide
theorem test_in_register : seen (fun s => (s.reg 0, s.mem.get 300, s.inCount))
    (step { image [20, 32768] with input := inputOf [104], regs := Vector.replicate 8 300 }) =
    some (104, 0, 1) := by decide
theorem test_in_memory : seen (fun s => (s.mem.get 300, s.reg 0, s.inCount))
    (step { image [20, 300] with input := inputOf [90, 104], inCount := 1 }) =
    some (104, 0, 2) := by decide

/-! ### Faults before `Execute`, and the environment -/

theorem test_unknown_opcode : seen (fun s => (s.run, s.pc)) (step (image [99])) =
    some (.faulted .unknownOpcodeError 99 0, 1) := by decide
theorem test_straddles_the_end : seen (fun s => (s.run, s.pc)) (step (at_ 32766 [1, 32768])) =
    some (.faulted .memoryBoundsError 32768 32766, 32768) := by decide
theorem test_bad_in_consumes_nothing : seen (fun s => (s.run, s.pc, s.inCount))
    (step { image [20, 40000] with input := inputOf [97] }) =
    some (.faulted .decodeError 40000 0, 2, 0) := by decide
theorem test_in_waits : step { image [20, 32769] with input := { bytes := [], ended := false } } =
    .fault .waitingForInput := by rfl
theorem test_load_little_endian : loadImage (some [0x01, 0x80, 0x04, 0x00]) =
    .ok [32769, 4] := by rfl
theorem test_cause_codes : [Cause.decodeError, .unknownOpcodeError, .stackUnderflowError,
    .divisionError, .outOfRangeError, .memoryBoundsError, .stackOverflowError].map Cause.code =
    [1, 2, 3, 4, 5, 6, 7] := by decide
theorem test_status : (seen State.status (step (image [99]))) =
    some { kind := .faulted, reason := none, cause := some .unknownOpcodeError, info := some 99,
           faultPc := some 0 } := by decide

/-- `State.reset` is the reset with the empty image (R252) and the parameters of log entries 5 and 6. -/
theorem test_reset_is_the_empty_image :
    State.reset = State.resetWith [] (inputOf []) { stackDepth := none } := by rfl

/-- S1 of 95_test_vectors.md: `out 65`, `halt` emits the byte 0x41 and ends cleanly. -/
theorem test_scenario_1 : seen (fun s => (s.outSeq, s.run, s.pc))
    (Sys2Proof.core.run 2 (image [19, 65, 0])) =
    some ([65], .halted .haltInstruction, 3) := by decide

/-! ### Witnesses: states and operands that meet the hypotheses of the statements -/

theorem witness_ResetGivesTheTableOfInitialValues :
    (List.replicate 32768 (1 : Word)).length ≤ memCells ∧ ([] : List Word).length ≤ memCells ∧
      1 < [7, (8 : Word)].length ∧ [7, (8 : Word)].length ≤ 2 := by
  rw [List.length_replicate]
  decide

theorem witness_LoaderReadsLittleEndianWords :
    loadImage (some [0x01, 0x80]) = .ok [32769] ∧ ([32769] : List Word)[0]? = some 32769 :=
  ⟨rfl, rfl⟩

theorem witness_LoaderRefusesWhatIsNoImage :
    (List.replicate 1 (0 : Byte)).length % 2 = 1 ∧
      ((List.replicate 65538 (0 : Byte)).length % 2 = 0 ∧
        2 * memCells < (List.replicate 65538 (0 : Byte)).length) ∧
      ((List.replicate 65536 (0 : Byte)).length % 2 = 0 ∧
        (List.replicate 65536 (0 : Byte)).length ≤ 2 * memCells) := by
  simp only [List.length_replicate]
  decide

theorem witness_ResetMeetsTheInvariant : (List.replicate 32768 (1 : Word)).length ≤ memCells := by
  rw [List.length_replicate]

/-- A state with a bounded stack and a character to read that meets the invariant, and steps. -/
theorem witness_StepKeepsTheInvariant :
    let s : State := { image [20, 32767] with
      input := inputOf [90], stack := [1], cfg := { stackDepth := some 1 } }
    s.Inv ∧ seen (fun t => t.mem.get 32767) (step s) = some 90 := by
  refine ⟨⟨by decide, ?_, by decide⟩, by decide⟩
  rintro n ⟨⟩
  decide

theorem witness_CanonicalMemoriesThatReadAlikeAreEqual :
    Memory.wf [(0, 1), (32767, 65535)] ∧
      ∀ a, Memory.get [(0, 1), (32767, 65535)] a = Memory.get [(0, 1), (32767, 65535)] a :=
  ⟨by decide, fun _ => rfl⟩

theorem witness_DecodingAnEncodedInstructionGivesItBack :
    (Instr.wmem (.lit 32767) (.reg 7)).wf = true ∧ (Instr.inp (.mem 32767)).wf = true := by decide

theorem witness_DecodedWordsAreTheEncodingOfAnEncodableInstruction :
    decode [20, 32767, 5] = .ok (.inp (.mem 32767), [5]) := by rfl

/-- The last instruction that fits in memory. -/
theorem witness_StepRunsTheInstructionAtPc :
    (at_ 32766 [20, 32767]).run = .running ∧ (Instr.inp (.mem 32767)).wf = true ∧
      ∀ k (h : k < (encode (.inp (.mem 32767))).length),
        (at_ 32766 [20, 32767]).pc.toNat + k < memCells ∧
        (at_ 32766 [20, 32767]).mem.get ((at_ 32766 [20, 32767]).pc.toNat + k) =
          (encode (.inp (.mem 32767)))[k] := by
  refine ⟨rfl, by decide, fun k h => ?_⟩
  have : k < 2 := h
  obtain rfl | rfl : k = 0 ∨ k = 1 := by omega
  · exact ⟨by decide, rfl⟩
  · exact ⟨by decide, rfl⟩

/-- One word on each side of each border of the three operand kinds. -/
theorem witness_operand_words :
    (32767 : Word).toNat ≤ 32767 ∧ (32768 : Word).toNat = 32768 + (0 : Reg).val ∧
      (32775 : Word).toNat = 32768 + (7 : Reg).val ∧ 32775 < (32776 : Word).toNat ∧
      (32767 : Word).toNat < 32768 := by decide

theorem witness_OpcodeFetchAboveMemoryFaults :
    (at_ 32768 []).run = .running ∧ 32767 < (at_ 32768 []).pc.toNat := by decide

theorem witness_OpcodeWordsAboveTwentyOneFault :
    (at_ 32767 [22]).run = .running ∧ (at_ 32767 [22]).pc.toNat ≤ 32767 ∧
      21 < ((at_ 32767 [22]).mem.get (at_ 32767 [22]).pc.toNat).toNat := by decide

/-- The second operand of `wmem`, in the last cell, is bad and the first is good. -/
theorem witness_FirstBadOperandWordFaults :
    (at_ 32765 [16, 32775, 32776]).run = .running ∧
      (at_ 32765 [16, 32775, 32776]).pc.toNat + 1 + 1 ≤ 32767 ∧
      opcodeRows[((at_ 32765 [16, 32775, 32776]).mem.get 32765).toNat]? = some [.V, .V] ∧
      Kind.V.accepts ((at_ 32765 [16, 32775, 32776]).mem.get (32765 + 1 + 0)) = true ∧
      Kind.V.accepts ((at_ 32765 [16, 32775, 32776]).mem.get (32765 + 1 + 1)) = false := by decide

/-- `wmem` at 32766: its first operand is in the last cell and its second has none. -/
theorem witness_OperandFetchAboveMemoryFaults :
    (at_ 32766 [16, 7]).run = .running ∧ (at_ 32766 [16, 7]).pc.toNat + 1 + 1 = 32768 ∧
      opcodeRows[((at_ 32766 [16, 7]).mem.get 32766).toNat]? = some [.V, .V] ∧
      Kind.V.accepts ((at_ 32766 [16, 7]).mem.get (32766 + 1 + 0)) = true := by decide

theorem witness_FaultsArePrecise :
    seen (fun t => t.status.kind) (step (image [11, 32768, 7, 0])) = some .faulted := by decide

theorem witness_CleanEndsChangeNothingElse :
    seen (fun t => t.run) (step (image [0])) = some (.halted .haltInstruction) ∧
      seen (fun t => t.run) (step (image [18])) = some (.halted .retEmptyStack) ∧
      seen (fun t => t.run) (step (image [20, 5])) = some (.halted .inputExhausted) := by decide

theorem witness_OnlyARunningMachineSteps :
    (State.reset.haltFor .haltInstruction).run = .halted .haltInstruction ∧
      (State.reset.raise .divisionError 7 0).run = .faulted .divisionError 7 0 ∧
      seen (fun t => t.pc) (step State.reset) = some 1 := by decide

theorem witness_RunningMachineStepsUnlessItWaitsForInput : State.reset.run = .running := rfl

/-- A taken redirect, and a fall-through. -/
theorem witness_PcIsRedirectedOnlyByTransfers :
    State.reset.run = .running ∧
      seen (fun t => (t.run, t.pc)) (exec (.jf (.lit 0) (.lit 9)) State.reset) = some (.running, 9) ∧
      seen (fun t => (t.run, t.pc)) (exec (.jt (.lit 0) (.lit 9)) State.reset) = some (.running, 3) := by
  decide

theorem witness_OnlyTargetRegistersAreWritten :
    seen (fun t => t.reg 7) (step (image [1, 32775, 32767])) = some 32767 ∧
      (image [1, 32775, 32767]).reg 7 = 0 := by decide

theorem witness_OnlyTheAddressedCellIsWritten :
    seen (fun t => t.mem.get 32767) (step (image [16, 32767, 5])) = some 5 ∧
      (image [16, 32767, 5]).mem.get 32767 = 0 := by decide

/-- Each of the four instructions changes the stack of some state. -/
theorem witness_OnlyFourInstructionsTouchTheStack :
    seen (fun t => t.stack) (step ((image [2, 5]).setStack [1])) = some [5, 1] ∧
      seen (fun t => t.stack) (step ((image [3, 32768]).setStack [1])) = some [] ∧
      seen (fun t => t.stack) (step ((image [17, 5]).setStack [1])) = some [2, 1] ∧
      seen (fun t => t.stack) (step ((image [18]).setStack [1])) = some [] := by decide

theorem witness_OutputIsAppendedByOutAndNeverRead :
    seen (fun t => (t.outSeq, t.run)) (step ((image [19, 65]).emit 1)) =
        some ([1, 65], .running) ∧
      decode ((image [19, 65]).emit 1).window = .ok (.out (.lit 65), [0, 0]) := ⟨by decide, rfl⟩

theorem witness_OnlyInReadsTheInput :
    seen (fun t => t.pc) (step (image [21])) = some 1 ∧
      ∀ d rest, decode (image [21]).window ≠ .ok (.inp d, rest) := by
  refine ⟨by decide, fun d rest h => ?_⟩
  have h' : decode (image [21]).window = .ok (.noop, [0, 0, 0]) := rfl
  rw [h'] at h
  cases h

theorem witness_StoresAreSeenByTheNextFetch : (State.reset.value (.lit 32767)).toNat ≤ 32767 := by
  decide

theorem witness_ReducedResultsStayInRange :
    let s := (image []).setReg 0 65535
    seen (fun u => u.reg 1) (exec (.add 1 (.reg 0) (.reg 0)) s) = some 32766 ∧
      seen (fun u => u.reg 1) (exec (.mult 1 (.reg 0) (.reg 0)) s) = some 1 ∧
      seen (fun u => u.reg 1) (exec (.not 1 (.reg 0)) s) = some 0 ∧
      seen (fun u => u.reg 1) (exec (.eq 1 (.reg 0) (.reg 0)) s) = some 1 ∧
      seen (fun u => u.reg 1) (exec (.gt 1 (.reg 0) (.reg 0)) s) = some 0 := by decide

theorem witness_FifteenBitSourcesGiveFifteenBitResults :
    (Value.lit 32767).wf = true ∧ (Value.reg 0).wf = true ∧
      (∀ i, (State.reset.reg i).toNat ≤ 32767) ∧
      seen (fun u => u.reg 1) (exec (.or 1 (.lit 32767) (.reg 0)) State.reset) = some 32767 := by
  decide

/-- A stack with no bound, and one entry below the bound: `push`, `call` and the round trip. -/
theorem witness_stack_not_full :
    State.reset.cfg.stackDepth ≠ some State.reset.stack.length ∧
      ({ State.reset with stack := [1], cfg := { stackDepth := some 2 } } : State).cfg.stackDepth ≠
        some [(1 : Word)].length := by decide

/-- A full stack whose depth 16 bits hold, at the border, and one whose depth they do not. -/
theorem witness_PushAndCallOnAFullStackFault (n : Nat) (hn : n = 65535 ∨ n = 65536) :
    let s : State := { State.reset with
      stack := List.replicate n 1, cfg := { stackDepth := some n } }
    s.cfg.stackDepth = some s.stack.length ∧ (n = 65535 → s.stack.length ≤ 65535) := by
  rcases hn with rfl | rfl <;> simp only [List.length_replicate] <;> decide

theorem witness_PopTakesTheTopOrFaults :
    (State.reset.setStack [65535]).stack = 65535 :: [] ∧ State.reset.stack = [] := by decide

theorem witness_NoopOnlyAdvancesPc :
    (at_ 32767 [21]).run = .running ∧ (at_ 32767 [21]).pc = 32767 := by decide

theorem witness_JmpLoadsPc :
    ((image []).setReg 0 32768).run = .running ∧
      32767 < (((image []).setReg 0 32768).value (.reg 0)).toNat ∧
      32775 < (32776 : Word).toNat := by decide

theorem witness_ModWritesTheRemainderOrFaults :
    (State.reset.value (.lit 1)).toNat ≠ 0 ∧ (State.reset.value (.lit 0)).toNat = 0 := by decide

/-- An address on each side of the bound, for `rmem` and for `wmem`. -/
theorem witness_addresses :
    (State.reset.value (.lit 32767)).toNat ≤ 32767 ∧
      32767 < (((image []).setReg 0 32768).value (.reg 0)).toNat := by decide

theorem witness_RetPopsPcOrEndsTheRun :
    (State.reset.setStack [32768]).stack = 32768 :: [] ∧
      (State.reset.setStack [32768]).run = .running ∧ 32767 < (32768 : Word).toNat ∧
      State.reset.stack = [] := by decide

/-- `call 2` at 0 with `ret` at 2. -/
theorem witness_CallThenRetResumesAfterTheCall :
    (image [17, 2, 18]).run = .running ∧
      decode (image [17, 2, 18]).window = .ok (.call (.lit 2), [18, 0]) ∧
      (image [17, 2, 18]).cfg.stackDepth ≠ some (image [17, 2, 18]).stack.length ∧
      ((image [17, 2, 18]).value (.lit 2)).toNat ≤ 32767 ∧
      encode .ret = [(image [17, 2, 18]).mem.get ((image [17, 2, 18]).value (.lit 2)).toNat] := by
  exact ⟨rfl, rfl, by decide, by decide, by decide⟩

theorem witness_OutEmitsTheByteOrFaults :
    (State.reset.value (.lit 255)).toNat ≤ 255 ∧ 255 < (State.reset.value (.lit 256)).toNat := by
  decide

theorem witness_InWritesTheNextByteToItsSlot :
    ({ State.reset with input := inputOf [1, 255], inCount := 1 } : State).input.bytes[1]? =
      some 255 ∧ (32767 : Word).toNat ≤ 32767 := by decide

theorem witness_InAtTheEndOfInputEndsTheRun :
    ({ State.reset with input := inputOf [1], inCount := 1 } : State).input.ended = true ∧
      ({ State.reset with input := inputOf [1], inCount := 1 } : State).input.bytes.length ≤ 1 := by
  decide

theorem witness_InWaitsUntilTheEnvironmentAnswers :
    ({ State.reset with input := { bytes := [1], ended := false }, inCount := 1 } : State).input.ended
        = false ∧
      1 = ({ State.reset with input := { bytes := [1], ended := false } } : State).input.bytes.length
      := by decide

end Sys2Proof.Tests
end

section
/-! SUPPORT. The meanings of the instructions that branch, one equation for each branch. -/

namespace Sys2Proof.Machine

open Sys2Proof

theorem exec_push_of_not_full {s : State} (a : Value)
    (h : s.cfg.stackDepth ≠ some s.stack.length) :
    exec (.push a) s = .next ((s.advance 2).setStack (s.value a :: s.stack)) := by
  simp [exec, execPush, (s.advance 2).push_of_not_full (s.value a) h]

theorem exec_push_of_full {s : State} (a : Value)
    (h : s.cfg.stackDepth = some s.stack.length) :
    exec (.push a) s = .next (s.fail 2 .stackOverflowError s.depthInfo) := by
  simp [exec, execPush, (s.advance 2).push_of_full (s.value a) h]

theorem exec_call_of_not_full {s : State} (a : Value)
    (h : s.cfg.stackDepth ≠ some s.stack.length) :
    exec (.call a) s =
      .next (((s.advance 2).setStack ((s.pc + 2) :: s.stack)).setPc (s.value a)) := by
  simp only [exec, execCall, (s.advance 2).push_of_not_full (s.advance 2).pc h]
  rfl

theorem exec_call_of_full {s : State} (a : Value)
    (h : s.cfg.stackDepth = some s.stack.length) :
    exec (.call a) s = .next (s.fail 2 .stackOverflowError s.depthInfo) := by
  simp only [exec, execCall, (s.advance 2).push_of_full (s.advance 2).pc h]

theorem exec_pop_of_cons {s : State} (t : Reg) {v : Word} {rest : List Word}
    (h : s.stack = v :: rest) :
    exec (.pop t) s = .next ((s.setStack rest).writeBack 2 t v) := by
  simp [exec, execPop, h]

theorem exec_mod_of_zero {s : State} (t : Reg) (a : Value) {b : Value} (h : s.value b = 0) :
    exec (.mod t a b) s = .next (s.fail 4 .divisionError (s.value a)) := if_pos h

theorem exec_mod_of_ne_zero {s : State} (t : Reg) (a : Value) {b : Value} (h : s.value b ≠ 0) :
    exec (.mod t a b) s = .next (s.writeBack 4 t (aluMod (s.value a) (s.value b))) := if_neg h

theorem exec_out_of_le {s : State} {a : Value} (h : (s.value a).toNat ≤ charMax) :
    exec (.out a) s = .next ((s.advance 2).emit ((s.value a).setWidth 8)) :=
  if_neg (Nat.not_lt.2 h)

theorem exec_out_of_gt {s : State} {a : Value} (h : charMax < (s.value a).toNat) :
    exec (.out a) s = .next (s.fail 2 .outOfRangeError (s.value a)) :=
  if_pos h

end Sys2Proof.Machine
end

section
/-! SUPPORT. The invariant, field by field: what an effect does to memory, the stack and the input
position (R31, R34, R191). -/

namespace Sys2Proof.Machine

open Sys2Proof

/-- Every cell of the image is a cell of memory, so the loaded memory is canonical (R250, R252). -/
theorem State.resetWith_inv (img : List Word) (input : InputStream) (cfg : Config)
    (h : img.length ≤ memCells) : (State.resetWith img input cfg).Inv :=
  ⟨Memory.fromWords_wf img 0 (by omega), fun n _ => Nat.zero_le n, Nat.zero_le _⟩

/-- No instruction changes the parameters of the run (R40, R31). -/
theorem Effect.input_eq_cfg_eq {s t : State} {i : Instr} (he : Effect s i t) :
    t.input = s.input ∧ t.cfg = s.cfg := by
  cases he <;> exact ⟨rfl, rfl⟩

/-- Stores go to cells of the 32768 alone, so memory keeps its canonical form. -/
theorem Effect.mem_wf {s t : State} {i : Instr} (he : Effect s i t) (h : s.mem.wf) :
    t.mem.wf := by
  cases he with
  | stored a b ha => exact Memory.set_wf _ h ha
  | readToMem a hc ha => exact Memory.set_wf _ h ha
  | _ => exact h

/-- The character that is read was supplied, so the next position is not past the supply. -/
theorem State.inCount_lt_of_inChar {s : State} {c : Byte} (h : s.inChar = .char c) :
    s.inCount < s.input.bytes.length :=
  (List.getElem?_eq_some_iff.1 (State.inChar_eq_char h)).1

theorem Effect.inCount_le {s t : State} {i : Instr} (he : Effect s i t)
    (h : s.inCount ≤ s.input.bytes.length) : t.inCount ≤ t.input.bytes.length := by
  cases he with
  | readToReg r hc => exact State.inCount_lt_of_inChar hc
  | readToMem a hc ha => exact State.inCount_lt_of_inChar hc
  | _ => exact h

/-- Only `push` and `call` make the stack longer (R33). -/
theorem Effect.stack_length_le {s t : State} {i : Instr} (he : Effect s i t)
    (hp : ∀ a, i ≠ .push a) (hc : ∀ a, i ≠ .call a) : t.stack.length ≤ s.stack.length := by
  cases he with
  | pushed a => exact absurd rfl (hp a)
  | called a => exact absurd rfl (hc a)
  | popped r hs => simp [hs]
  | returned hs => simp [hs]
  | _ => exact le_refl _

/-- A stack within its depth that is not full has room for one entry more. -/
theorem State.stack_length_lt_of_not_full {s : State} {n : Nat}
    (hf : s.cfg.stackDepth ≠ some s.stack.length) (hd : s.cfg.stackDepth = some n)
    (hle : s.stack.length ≤ n) : s.stack.length < n :=
  lt_of_le_of_ne hle fun e => hf (e ▸ hd)

/-- An instruction keeps the stack within `STACK_DEPTH`: `push` and `call` add an entry where there
is room and fault where there is none (R31). -/
theorem exec_stack_length_le {i : Instr} {s t : State} {n : Nat} (h : exec i s = .next t)
    (hd : s.cfg.stackDepth = some n) (hle : s.stack.length ≤ n) : t.stack.length ≤ n := by
  cases i with
  | push a =>
    by_cases hf : s.cfg.stackDepth = some s.stack.length
    · obtain rfl := Host.Outcome.next.inj (exec_push_of_full a hf ▸ h)
      exact hle
    · obtain rfl := Host.Outcome.next.inj (exec_push_of_not_full a hf ▸ h)
      exact State.stack_length_lt_of_not_full hf hd hle
  | call a =>
    by_cases hf : s.cfg.stackDepth = some s.stack.length
    · obtain rfl := Host.Outcome.next.inj (exec_call_of_full a hf ▸ h)
      exact hle
    · obtain rfl := Host.Outcome.next.inj (exec_call_of_not_full a hf ▸ h)
      exact State.stack_length_lt_of_not_full hf hd hle
  | _ => exact ((exec_effect h).stack_length_le (by simp) (by simp)).trans hle

theorem exec_inv {i : Instr} {s t : State} (hs : s.Inv) (h : exec i s = .next t) : t.Inv := by
  have he := exec_effect h
  obtain ⟨-, hcfg⟩ := he.input_eq_cfg_eq
  exact ⟨he.mem_wf hs.mem,
    fun n hn => exec_stack_length_le h (hcfg ▸ hn) (hs.stack n (hcfg ▸ hn)),
    he.inCount_le hs.input⟩

theorem State.raiseReject_inv {s : State} (hs : s.Inv) (r : Reject) : (s.raiseReject r).Inv := by
  obtain ⟨n, e, info, h⟩ := s.raiseReject_eq r
  exact h ▸ ⟨hs.mem, hs.stack, hs.input⟩

end Sys2Proof.Machine

namespace Sys2Proof.Proofs

open Sys2Proof Sys2Proof.Machine

/-- Settles O4: the image is in the canonical form, the stack is empty and nothing is consumed. -/
theorem resetMeetsTheInvariant : Obligations.ResetMeetsTheInvariant :=
  ⟨State.resetWith_inv [] _ _ (Nat.zero_le _), State.resetWith_inv⟩

/-- Settles O5, by the two ways a step can answer a next state. -/
theorem stepKeepsTheInvariant : Obligations.StepKeepsTheInvariant := by
  intro s t hs h
  obtain ⟨-, ⟨i, rest, -, hx⟩ | ⟨r, -, rfl⟩⟩ := step_eq_next h
  · exact exec_inv hs hx
  · exact State.raiseReject_inv hs r

end Sys2Proof.Proofs
end

section
/-! SUPPORT. The canonical form of memory determines the list (R34). -/

namespace Sys2Proof.Machine

open Sys2Proof

/-- The entries of a canonical memory are the cells that read as something other than 0. -/
theorem Memory.mem_iff_get {m : Memory} (h : m.wf) (k : Nat) (v : Word) :
    (k, v) ∈ m ↔ v ≠ 0 ∧ m.get k = v := by
  induction m with
  | nil => exact ⟨fun hm => absurd hm List.not_mem_nil, fun ⟨hv, h0⟩ => absurd h0.symm hv⟩
  | cons c m ih =>
    obtain ⟨k', v'⟩ := c
    obtain ⟨hlt, hrest⟩ := List.pairwise_cons.1 h.1
    have hv' : v' ≠ 0 := (h.2 (k', v') (by simp)).2
    have ih' := ih ⟨hrest, fun c hc => h.2 c (by simp [hc])⟩
    by_cases hk : k' = k
    · subst hk
      have hnot : (k', v) ∉ m := fun hm => lt_irrefl k' (hlt _ hm)
      simp only [List.mem_cons, Prod.mk.injEq, true_and, hnot, or_false, Memory.get, if_true]
      exact ⟨fun e => ⟨e ▸ hv', e.symm⟩, fun e => e.2.symm⟩
    · have hne : (k, v) ≠ (k', v') := fun e => hk (Prod.mk.inj e).1.symm
      rw [List.mem_cons, or_iff_right hne, ih', Memory.get, if_neg hk]

end Sys2Proof.Machine

namespace Sys2Proof.Proofs

open Sys2Proof Sys2Proof.Machine

/-- Settles O6: the two lists have the same entries, and both are sorted by address. -/
theorem canonicalMemoriesThatReadAlikeAreEqual :
    Obligations.CanonicalMemoriesThatReadAlikeAreEqual := by
  intro m m' h h' hget
  have hmem : ∀ c, c ∈ m ↔ c ∈ m' := fun ⟨k, v⟩ => by
    rw [Memory.mem_iff_get h, Memory.mem_iff_get h', hget]
  have nodup : ∀ {l : Memory}, l.wf → l.Nodup := fun hl => hl.1.imp fun hlt e => by simp [e] at hlt
  have hperm : m.Perm m' := (List.perm_ext_iff_of_nodup (nodup h) (nodup h')).2 hmem
  exact hperm.eq_of_pairwise (fun c d _ _ hcd hdc => absurd hcd (lt_asymm hdc)) h.1 h'.1

end Sys2Proof.Proofs
end

section
/-! SUPPORT. The output: only `out` appends to it, and no instruction reads it (R39). -/

namespace Sys2Proof.Machine

open Sys2Proof

/-- The outcome with the next state, if there is one, changed by `f`. -/
def mapNext (f : State → State) :
    Host.Outcome State Fault Refusal → Host.Outcome State Fault Refusal
  | .next s => .next (f s)
  | .fault r => .fault r
  | .refused r => .refused r

theorem mapNext_ite (f : State → State) (p : Prop) [Decidable p]
    (x y : Host.Outcome State Fault Refusal) :
    mapNext f (if p then x else y) = if p then mapNext f x else mapNext f y :=
  apply_ite (mapNext f) p x y

/-- The state with another output so far (R39). -/
def State.withOutSeq (s : State) (o : List Byte) : State := { s with outSeq := o }

section WithOutSeq

variable (s : State) (o : List Byte)

@[simp] theorem State.stack_withOutSeq : (s.withOutSeq o).stack = s.stack := rfl
@[simp] theorem State.pc_withOutSeq : (s.withOutSeq o).pc = s.pc := rfl
@[simp] theorem State.value_withOutSeq (a : Value) : (s.withOutSeq o).value a = s.value a := rfl
@[simp] theorem State.inChar_withOutSeq : (s.withOutSeq o).inChar = s.inChar := rfl
@[simp] theorem State.memRead_withOutSeq (a : Word) :
    (s.withOutSeq o).memRead a = s.memRead a := rfl
@[simp] theorem State.advance_withOutSeq (n : Nat) :
    (s.withOutSeq o).advance n = (s.advance n).withOutSeq o := rfl

@[simp] theorem State.push_withOutSeq (v : Word) :
    (s.withOutSeq o).push v = (s.push v).map (·.withOutSeq o) := by
  by_cases h : s.cfg.stackDepth = some s.stack.length
  · rw [s.push_of_full v h]
    exact State.push_of_full _ v h
  · rw [s.push_of_not_full v h]
    exact State.push_of_not_full _ v h

@[simp] theorem State.memWrite_withOutSeq (a v : Word) :
    (s.withOutSeq o).memWrite a v = (s.memWrite a v).map (·.withOutSeq o) := by
  by_cases h : a.toNat < memCells
  · rw [s.memWrite_of_lt v h]
    exact State.memWrite_of_lt _ v h
  · rw [s.memWrite_of_not_lt v h]
    exact State.memWrite_of_not_lt _ v h

@[simp] theorem State.writeSlot_withOutSeq (d : Dest) (v : Word) :
    (s.withOutSeq o).writeSlot d v = (s.writeSlot d v).map (·.withOutSeq o) := by
  cases d with
  | reg i => rfl
  | mem a => exact s.memWrite_withOutSeq o a v

/-- Every instruction but `out` does the same whatever has been output (R39). -/
theorem exec_withOutSeq {i : Instr} (ho : ∀ a, i ≠ .out a) :
    exec i (s.withOutSeq o) = mapNext (·.withOutSeq o) (exec i s) := by
  cases i with
  | out a => exact absurd rfl (ho a)
  | mod r a b =>
    simp only [exec, execMod, State.value_withOutSeq, mapNext_ite]
    rfl
  | jt a b =>
    simp only [exec, execJt, State.value_withOutSeq, mapNext_ite]
    rfl
  | jf a b =>
    simp only [exec, execJf, State.value_withOutSeq, mapNext_ite]
    rfl
  | push a =>
    simp only [exec, execPush, State.value_withOutSeq, State.advance_withOutSeq,
      State.push_withOutSeq]
    cases (s.advance 2).push (s.value a) <;> rfl
  | call a =>
    simp only [exec, execCall, State.value_withOutSeq, State.advance_withOutSeq,
      State.push_withOutSeq, State.pc_withOutSeq]
    cases (s.advance 2).push (s.advance 2).pc <;> rfl
  | pop t =>
    simp only [exec, execPop, State.stack_withOutSeq]
    cases s.stack <;> rfl
  | ret =>
    simp only [exec, execRet, State.stack_withOutSeq]
    cases s.stack <;> rfl
  | rmem t a =>
    simp only [exec, execRmem, State.value_withOutSeq, State.memRead_withOutSeq]
    cases s.memRead (s.value a) <;> rfl
  | wmem a b =>
    simp only [exec, execWmem, State.value_withOutSeq, State.advance_withOutSeq,
      State.memWrite_withOutSeq]
    cases (s.advance 3).memWrite (s.value a) (s.value b) <;> rfl
  | inp d =>
    simp only [exec, execIn, State.inChar_withOutSeq, State.advance_withOutSeq,
      State.writeSlot_withOutSeq]
    cases s.inChar with
    | char c =>
      dsimp only
      cases (s.advance 2).writeSlot d (c.setWidth 16) <;> rfl
    | _ => rfl
  | _ => rfl

end WithOutSeq

/-- No instruction but `out` appends to the output (R39). -/
theorem Effect.outSeq_eq {s t : State} {i : Instr} (he : Effect s i t) (ho : ∀ a, i ≠ .out a) :
    t.outSeq = s.outSeq := by
  cases he with
  | emitted a ha => exact absurd rfl (ho a)
  | _ => rfl

/-- What R39 says of a step from `s` to `t`: it appends `new`, and what had been output before has
no part in it. -/
structure AppendsOutput (s t : State) (new : List Byte) : Prop where
  outSeq : t.outSeq = s.outSeq ++ new
  blind : ∀ o, step (s.withOutSeq o) = .next (t.withOutSeq (o ++ new))

theorem step_appends_nothing {s t : State} (h : step s = .next t)
    (ho : ¬∃ a rest, decode s.window = .ok (.out a, rest)) : AppendsOutput s t [] := by
  obtain ⟨hr, ⟨i, rest, hd, hx⟩ | ⟨r, hd, rfl⟩⟩ := step_eq_next h
  · have hi : ∀ a, i ≠ .out a := fun a e => ho ⟨a, rest, e ▸ hd⟩
    refine ⟨by simpa using (exec_effect hx).outSeq_eq hi, fun o => ?_⟩
    rw [step_of_decode (s := s.withOutSeq o) hr hd, exec_withOutSeq s o hi, hx, List.append_nil]
    rfl
  · refine ⟨by simpa using (s.raiseReject_keepsData r).outSeq, fun o => ?_⟩
    rw [step_of_reject (s := s.withOutSeq o) hr hd, List.append_nil]
    cases r <;> rfl

/-- A step that runs `out` emits the value as one byte, or faults and appends nothing (R195). -/
theorem step_out_appends {s t : State} {a : Value} {rest : List Word} (h : step s = .next t)
    (hd : decode s.window = .ok (.out a, rest)) :
    ((s.value a).toNat ≤ charMax ∧ AppendsOutput s t [(s.value a).setWidth 8]) ∨
      (t.run ≠ .running ∧ AppendsOutput s t []) := by
  obtain ⟨hr, -⟩ := step_eq_next h
  have hstep : ∀ o, step (s.withOutSeq o) = exec (.out a) (s.withOutSeq o) := fun _ =>
    step_of_decode hr hd
  rw [step_of_decode hr hd] at h
  by_cases ha : (s.value a).toNat ≤ charMax
  · obtain rfl := Host.Outcome.next.inj (exec_out_of_le ha ▸ h)
    exact .inl ⟨ha, rfl, fun o => (hstep o).trans (exec_out_of_le ha)⟩
  · have hgt := Nat.lt_of_not_le ha
    obtain rfl := Host.Outcome.next.inj (exec_out_of_gt hgt ▸ h)
    refine .inr ⟨by simp, by simp, fun o => ?_⟩
    rw [hstep, exec_out_of_gt (s := s.withOutSeq o) hgt, List.append_nil]
    rfl

theorem toNat_setWidth_of_le_charMax {w : Word} (h : w.toNat ≤ charMax) :
    (w.setWidth 8).toNat = w.toNat := by
  rw [BitVec.toNat_setWidth]
  exact Nat.mod_eq_of_lt (Nat.lt_succ_of_le h)

end Sys2Proof.Machine

namespace Sys2Proof.Proofs

open Sys2Proof Sys2Proof.Machine

/-- Settles O26: a step runs `out` and emits, runs `out` and faults, or is no `out`. -/
theorem outputIsAppendedByOutAndNeverRead : Obligations.OutputIsAppendedByOutAndNeverRead := by
  refine ⟨rfl, fun s t h => ?_⟩
  by_cases hout : ∃ a rest, decode s.window = .ok (.out a, rest)
  · obtain ⟨a, rest, hd⟩ := hout
    obtain ⟨ha, happ⟩ | ⟨hrun, happ⟩ := step_out_appends h hd
    · exact ⟨_, happ.outSeq,
        fun _ => ⟨a, _, rest, hd, rfl, (toNat_setWidth_of_le_charMax ha).symm⟩,
        fun _ _ _ _ => rfl, happ.blind⟩
    · exact ⟨[], happ.outSeq, fun hne => absurd rfl hne, fun _ _ _ hr => absurd hr hrun,
        happ.blind⟩
  · have happ := step_appends_nothing h hout
    exact ⟨[], happ.outSeq, fun hne => absurd rfl hne,
      fun a rest hd => absurd ⟨a, rest, hd⟩ hout, happ.blind⟩

end Sys2Proof.Proofs
end

section
/-! SUPPORT. The ends of a run, and where `pc` is left (R26, R27, R36, R37). -/

namespace Sys2Proof.Machine

open Sys2Proof

/-- Three effects end the run well, and each leaves `pc` after the instruction's words (R36). -/
theorem Effect.eq_haltFor {s t : State} {i : Instr} {reason : HaltReason} (he : Effect s i t)
    (hs : s.run = .running) (ht : t.run = .halted reason) :
    t = (s.advance (encode i).length).haltFor reason ∧
      (i = .halt ∧ reason = .haltInstruction ∨
        i = .ret ∧ s.stack = [] ∧ reason = .retEmptyStack ∨
        (∃ d, i = .inp d) ∧ s.inChar = .eof ∧ reason = .inputExhausted) := by
  cases he with
  | halted =>
    cases ht
    exact ⟨rfl, .inl ⟨rfl, rfl⟩⟩
  | retEnded hst =>
    cases ht
    exact ⟨rfl, .inr (.inl ⟨rfl, hst, rfl⟩)⟩
  | inputEnded d hc =>
    cases ht
    exact ⟨rfl, .inr (.inr ⟨⟨d, rfl⟩, hc, rfl⟩)⟩
  | faulted e info => cases ht
  | _ => exact absurd (hs.symm.trans ht) (by simp)

/-- An effect that leaves the machine RUNNING loads `pc` with the instruction's target, or lets it
fall through (R26, R27). -/
theorem Effect.pc_eq {s t : State} {i : Instr} (he : Effect s i t) (ht : t.run = .running) :
    t.pc = (redirect s i).getD (s.pc + BitVec.ofNat 16 (encode i).length) := by
  cases he with
  | faulted | halted | retEnded | inputEnded => cases ht
  | wrote v _ _ _ hn => simp [hn]
  | notTaken hn => simp [hn]
  | jumped hw => simp [hw]
  | returned hs => simp [redirect, hs]
  | nothing | pushed | popped | stored | called | emitted | readToReg | readToMem => rfl

/-- Above the last cell there is no word to fetch (R28). -/
theorem State.window_eq_nil {s : State} (h : memCells ≤ s.pc.toNat) : s.window = [] :=
  List.ext_getElem? fun k => by
    rw [s.window_getElem?, if_neg (by omega)]
    rfl

end Sys2Proof.Machine

namespace Sys2Proof.Proofs

open Sys2Proof Sys2Proof.Machine

/-- Settles O19: a fault of the words at `pc` is no clean end, and three effects are. -/
theorem cleanEndsChangeNothingElse : Obligations.CleanEndsChangeNothingElse := by
  intro s t reason h ht
  obtain ⟨hr, ⟨i, rest, hd, he⟩ | ⟨n, e, info, rfl⟩⟩ := step_effect h
  · obtain ⟨rfl, hcases⟩ := he.eq_haltFor hr ht
    exact ⟨s.haltFor_keepsData _ _, i, rest, hd, rfl, hcases⟩
  · cases ht

/-- Settles O22, from the effects of an instruction. -/
theorem pcIsRedirectedOnlyByTransfers : Obligations.PcIsRedirectedOnlyByTransfers :=
  fun _ _ _ _ h ht => (exec_effect h).pc_eq ht

/-- Settles O14: the window of words is empty, which the decoder rejects before it takes a word. -/
theorem opcodeFetchAboveMemoryFaults : Obligations.OpcodeFetchAboveMemoryFaults := by
  intro s hr hpc
  have hd : decode s.window = .error (.truncated 0) := by
    rw [State.window_eq_nil hpc]
    rfl
  refine ⟨_, step_of_reject hr hd, ?_, ?_, s.raiseReject_keepsData _⟩ <;>
    simp [State.raiseReject]

/-- Settles O20, by the run state the step begins in. -/
theorem onlyARunningMachineSteps : Obligations.OnlyARunningMachineSteps :=
  ⟨fun _ _ h => (step_eq_next h).1, fun _ _ h => by simp [step, h],
    fun _ _ _ _ h => by simp [step, h]⟩

end Sys2Proof.Proofs
end

section
/-! SUPPORT. Which instruction writes a register or the stack (R21, R33). -/

namespace Sys2Proof.Machine

open Sys2Proof

/-- An instruction leaves every register alone but the target of R21. -/
theorem Effect.reg_eq {s t : State} {i : Instr} {j : Reg} (he : Effect s i t)
    (hj : targetReg i ≠ some j) : t.reg j = s.reg j := by
  cases he with
  | wrote v ht => exact s.reg_writeBack_other _ _ _ v fun e => hj (e ▸ ht)
  | popped r => exact State.reg_writeBack_other _ _ _ _ _ fun e => hj (congrArg some e.symm)
  | readToReg r =>
    exact (s.advance 2).reg_setReg_other _ _ _ fun e => hj (congrArg some e.symm)
  | _ => rfl

/-- The four effects that change the stack, each by one entry (R33). -/
theorem Effect.stack_cases {s t : State} {i : Instr} (he : Effect s i t)
    (hne : t.stack ≠ s.stack) :
    (∃ a, i = .push a ∧ t.stack = s.value a :: s.stack) ∨
      (∃ a, i = .call a ∧ t.stack = (s.pc + 2) :: s.stack) ∨
      (∃ r v, i = .pop r ∧ s.stack = v :: t.stack) ∨
      (∃ v, i = .ret ∧ s.stack = v :: t.stack) := by
  cases he with
  | pushed a => exact .inl ⟨a, rfl, rfl⟩
  | called a => exact .inr (.inl ⟨a, rfl, rfl⟩)
  | popped r hs => exact .inr (.inr (.inl ⟨r, _, rfl, hs⟩))
  | returned hs => exact .inr (.inr (.inr ⟨_, rfl, hs⟩))
  | _ => exact absurd rfl hne

end Sys2Proof.Machine

namespace Sys2Proof.Proofs

open Sys2Proof Sys2Proof.Machine

/-- Settles O23: a fault writes no register, and an effect only the target. -/
theorem onlyTargetRegistersAreWritten : Obligations.OnlyTargetRegistersAreWritten := by
  intro s t j h hne
  obtain ⟨-, ⟨i, rest, hd, he⟩ | ⟨n, e, info, rfl⟩⟩ := step_effect h
  · exact ⟨i, rest, hd, not_not.1 fun hj => hne (he.reg_eq hj)⟩
  · exact absurd rfl hne

/-- Settles O25: a fault leaves the stack alone, and so do all effects but four. -/
theorem onlyFourInstructionsTouchTheStack : Obligations.OnlyFourInstructionsTouchTheStack := by
  intro s t h hne
  obtain ⟨-, ⟨i, rest, hd, he⟩ | ⟨n, e, info, rfl⟩⟩ := step_effect h
  · exact ⟨i, rest, hd, he.stack_cases hne⟩
  · exact absurd rfl hne

/-- Settles O35: `push` and `call` on a full stack end in the same fault. -/
theorem pushAndCallOnAFullStackFault : Obligations.PushAndCallOnAFullStackFault := by
  intro s a i hf hi
  have hx : exec i s = .next (s.fail 2 .stackOverflowError s.depthInfo) := by
    rcases hi with rfl | rfl
    · exact exec_push_of_full a hf
    · exact exec_call_of_full a hf
  exact ⟨_, _, hx, rfl, fun hle => s.depthInfo_toNat (Nat.lt_succ_of_le hle), rfl,
    s.fail_keepsData _ _ _⟩

/-- Settles O37: `pop` finds the entry that `push` has put on top. -/
theorem pushThenPopRoundTrips : Obligations.PushThenPopRoundTrips := by
  intro s t a hf
  refine ⟨_, _, exec_push_of_not_full a hf, exec_pop_of_cons t rfl,
    State.reg_writeBack_same _ _ _ _, rfl, fun j hj => ?_, fun _ _ => rfl, rfl, rfl⟩
  exact State.reg_writeBack_other _ _ _ _ _ (by simpa using hj)

end Sys2Proof.Proofs
end

section
/-! SUPPORT. The ranges of the ALU's results (R23, R41, R166). -/

namespace Sys2Proof.Machine

open Sys2Proof

/-- 16 bits hold every number reduced modulo 32768. -/
theorem toNat_ofNat_mod_modulus (n : Nat) :
    (BitVec.ofNat 16 (n % modulus)).toNat = n % modulus := by
  rw [BitVec.toNat_ofNat]
  exact Nat.mod_eq_of_lt ((Nat.mod_lt n (by decide)).trans (by decide))

theorem aluAdd_toNat (a b : Word) : (aluAdd a b).toNat = (a.toNat + b.toNat) % modulus :=
  toNat_ofNat_mod_modulus _

theorem aluMult_toNat (a b : Word) : (aluMult a b).toNat = a.toNat * b.toNat % modulus :=
  toNat_ofNat_mod_modulus _

theorem mod_modulus_le (n : Nat) : n % modulus ≤ 32767 :=
  Nat.le_of_lt_succ (Nat.mod_lt n (by decide))

theorem aluNot_toNat_le (a : Word) : (aluNot a).toNat ≤ 32767 := by
  rw [aluNot, BitVec.toNat_and]
  exact Nat.and_le_right

theorem truthWord_toNat_le (p : Bool) : (truthWord p).toNat ≤ 1 := by
  cases p <;> decide

theorem aluAnd_toNat_le {a b : Word} (ha : a.toNat ≤ 32767) : (aluAnd a b).toNat ≤ 32767 := by
  rw [aluAnd, BitVec.toNat_and]
  exact Nat.and_le_left.trans ha

theorem aluOr_toNat_le {a b : Word} (ha : a.toNat ≤ 32767) (hb : b.toNat ≤ 32767) :
    (aluOr a b).toNat ≤ 32767 := by
  rw [aluOr, BitVec.toNat_or]
  have : a.toNat ||| b.toNat < 2 ^ 15 :=
    Nat.or_lt_two_pow (Nat.lt_succ_of_le ha) (Nat.lt_succ_of_le hb)
  exact Nat.le_of_lt_succ this

theorem aluMod_toNat (a b : Word) : (aluMod a b).toNat = a.toNat % b.toNat := by
  rw [aluMod, BitVec.toNat_ofNat]
  exact Nat.mod_eq_of_lt ((Nat.mod_le _ _).trans_lt a.isLt)

/-- An encodable operand has 15 bits where the registers have (R97). -/
theorem State.value_toNat_le {s : State} (hs : ∀ i, (s.reg i).toNat ≤ 32767) {a : Value}
    (ha : a.wf = true) : (s.value a).toNat ≤ 32767 := by
  cases a with
  | lit v => exact Nat.le_of_lt_succ (of_decide_eq_true ha)
  | reg i => exact hs i

end Sys2Proof.Machine

namespace Sys2Proof.Proofs

open Sys2Proof Sys2Proof.Machine

/-- Settles O29, from the range of each ALU function. -/
theorem reducedResultsStayInRange : Obligations.ReducedResultsStayInRange := by
  refine fun s u t a b => ⟨?_, ?_⟩
  · rintro (h | h | h) <;> obtain rfl := Host.Outcome.next.inj h <;> rw [State.reg_writeBack_same]
    · rw [aluAdd_toNat]
      exact mod_modulus_le _
    · rw [aluMult_toNat]
      exact mod_modulus_le _
    · exact aluNot_toNat_le _
  · rintro (h | h) <;> obtain rfl := Host.Outcome.next.inj h <;> rw [State.reg_writeBack_same]
    · exact truthWord_toNat_le _
    · exact truthWord_toNat_le _

/-- Settles O30: the result of each of the four is no wider than its operands. -/
theorem fifteenBitSourcesGiveFifteenBitResults :
    Obligations.FifteenBitSourcesGiveFifteenBitResults := by
  intro s u t a b ha hb hs h
  have hva := State.value_toNat_le hs ha
  have hvb := State.value_toNat_le hs hb
  rcases h with h | h | h | h
  · obtain rfl := Host.Outcome.next.inj h
    rwa [State.reg_writeBack_same]
  · obtain rfl := Host.Outcome.next.inj h
    rw [State.reg_writeBack_same]
    exact aluAnd_toNat_le hva
  · obtain rfl := Host.Outcome.next.inj h
    rw [State.reg_writeBack_same]
    exact aluOr_toNat_le hva hvb
  · by_cases h0 : s.value b = 0
    · obtain rfl := Host.Outcome.next.inj (exec_mod_of_zero t a h0 ▸ h)
      exact hs t
    · obtain rfl := Host.Outcome.next.inj (exec_mod_of_ne_zero t a h0 ▸ h)
      rw [State.reg_writeBack_same, aluMod_toNat]
      exact (Nat.mod_le _ _).trans hva

end Sys2Proof.Proofs
end

section
/-! SUPPORT. Which instruction writes memory, and that a fetch reads what was stored (R50, R61, R63). -/

namespace Sys2Proof.Machine

open Sys2Proof

/-- An effect that changes a cell is a store to its address, by the list of R50. -/
theorem Effect.storeAddress_of_get_ne {s t : State} {i : Instr} {a : Nat} (he : Effect s i t)
    (hne : t.mem.get a ≠ s.mem.get a) : ∃ w, storeAddress s i = some w ∧ w.toNat = a := by
  cases he with
  | stored x b =>
    exact ⟨_, rfl, not_not.1 fun hw => hne (s.mem.get_set_other _ (Ne.symm hw))⟩
  | readToMem x =>
    exact ⟨_, rfl, not_not.1 fun hw => hne (s.mem.get_set_other _ (Ne.symm hw))⟩
  | _ => exact absurd rfl hne

theorem exec_wmem_of_lt {s : State} {a : Value} (b : Value) (h : (s.value a).toNat < memCells) :
    exec (.wmem a b) s =
      .next ((s.advance 3).setMem (s.mem.set (s.value a).toNat (s.value b))) := by
  simp [exec, execWmem, (s.advance 3).memWrite_of_lt (s.value b) h]

/-- The first word fetched is the cell that `pc` addresses (R84). -/
theorem State.window_head? {s : State} (h : s.pc.toNat < memCells) :
    s.window.head? = some (s.mem.get s.pc.toNat) := by
  rw [List.head?_eq_getElem?, s.window_getElem?, if_pos ⟨by decide, h⟩]
  rfl

end Sys2Proof.Machine

namespace Sys2Proof.Proofs

open Sys2Proof Sys2Proof.Machine

/-- Settles O24: a fault writes no cell, and an effect only the one its instruction addresses. -/
theorem onlyTheAddressedCellIsWritten : Obligations.OnlyTheAddressedCellIsWritten := by
  intro s t a h hne
  obtain ⟨-, ⟨i, rest, hd, he⟩ | ⟨n, e, info, rfl⟩⟩ := step_effect h
  · obtain ⟨w, hw, ha⟩ := he.storeAddress_of_get_ne hne
    exact ⟨i, rest, w, hd, hw, ha⟩
  · exact absurd rfl hne

/-- Settles O28: the fetch reads the stored cell, and a read gives the value last written (R57). -/
theorem storesAreSeenByTheNextFetch : Obligations.StoresAreSeenByTheNextFetch := by
  intro s a b ha
  have hlt : (s.value a).toNat < memCells := Nat.lt_succ_of_le ha
  refine ⟨_, exec_wmem_of_lt b hlt, (State.window_head? ?_).trans (congrArg some ?_)⟩
  · exact hlt
  · exact s.mem.get_set_same _ _

end Sys2Proof.Proofs
end

section
/-! SUPPORT. The decoder against the encoder, format by format (R80, R83, R92). -/

namespace Sys2Proof

open Sys2Proof.Machine

/-! ### Reading an operand back from its word (R86 to R88) -/

theorem takeOperand_encodeReg (t : Reg) (n : Nat) (rest : List Word) :
    takeOperand decodeTarget n (encodeReg t :: rest) = .ok (t, rest) :=
  takeOperand_cons_some (decodeTarget_encodeReg t) n rest

theorem takeOperand_encodeValue {a : Value} (h : a.wf = true) (n : Nat) (rest : List Word) :
    takeOperand decodeValue n (encodeValue a :: rest) = .ok (a, rest) :=
  takeOperand_cons_some (decodeValue_encodeValue a h) n rest

theorem takeOperand_encodeDest {d : Dest} (h : d.wf = true) (n : Nat) (rest : List Word) :
    takeOperand decodeDest n (encodeDest d :: rest) = .ok (d, rest) :=
  takeOperand_cons_some (decodeDest_encodeDest d h) n rest

/-! ### Reading the operands of a format back (R83) -/

theorem formatV_encode (mk : Value → Instr) {a : Value} (ha : a.wf = true) (rest : List Word) :
    formatV mk (encodeValue a :: rest) = .ok (mk a, rest) := by
  simp only [formatV, takeOperand_encodeValue ha]

theorem formatT_encode (mk : Reg → Instr) (t : Reg) (rest : List Word) :
    formatT mk (encodeReg t :: rest) = .ok (mk t, rest) := by
  simp only [formatT, takeOperand_encodeReg]

theorem formatD_encode (mk : Dest → Instr) {d : Dest} (hd : d.wf = true) (rest : List Word) :
    formatD mk (encodeDest d :: rest) = .ok (mk d, rest) := by
  simp only [formatD, takeOperand_encodeDest hd]

theorem formatTV_encode (mk : Reg → Value → Instr) (t : Reg) {a : Value} (ha : a.wf = true)
    (rest : List Word) :
    formatTV mk (encodeReg t :: encodeValue a :: rest) = .ok (mk t a, rest) := by
  simp only [formatTV, takeOperand_encodeReg, takeOperand_encodeValue ha]

theorem formatVV_encode (mk : Value → Value → Instr) {a b : Value} (h : (a.wf && b.wf) = true)
    (rest : List Word) :
    formatVV mk (encodeValue a :: encodeValue b :: rest) = .ok (mk a b, rest) := by
  obtain ⟨ha, hb⟩ := Bool.and_eq_true_iff.1 h
  simp only [formatVV, takeOperand_encodeValue ha, takeOperand_encodeValue hb]

theorem formatTVV_encode (mk : Reg → Value → Value → Instr) (t : Reg) {a b : Value}
    (h : (a.wf && b.wf) = true) (rest : List Word) :
    formatTVV mk (encodeReg t :: encodeValue a :: encodeValue b :: rest) =
      .ok (mk t a b, rest) := by
  obtain ⟨ha, hb⟩ := Bool.and_eq_true_iff.1 h
  simp only [formatTVV, takeOperand_encodeReg, takeOperand_encodeValue ha,
    takeOperand_encodeValue hb]

/-- Each opcode word selects the format in which its instruction was encoded (R92). -/
theorem decode_encode {i : Instr} (h : i.wf = true) (rest : List Word) :
    decode (encode i ++ rest) = .ok (i, rest) := by
  cases i with
  | halt | ret | noop => rfl
  | push a | jmp a | call a | out a => exact formatV_encode _ h rest
  | pop t => exact formatT_encode _ t rest
  | inp d => exact formatD_encode _ h rest
  | set t a | not t a | rmem t a => exact formatTV_encode _ t h rest
  | jt a b | jf a b | wmem a b => exact formatVV_encode _ h rest
  | eq t a b | gt t a b | add t a b | mult t a b | mod t a b | and t a b | or t a b =>
    exact formatTVV_encode _ t h rest

theorem encode_length_le (i : Instr) : (encode i).length ≤ maxLength := by
  cases i <;> simp [encode, maxLength]

/-! ### The rows of the opcode map (R83, R92) -/

/-- `OpcodeRow op kinds parse`: the row of the opcode word `op` has the operand kinds `kinds` and
its operands are read by `parse`, one of the seven formats, which builds the instructions that are
encoded with `op` and operands of these kinds. -/
inductive OpcodeRow (op : Word) :
    List Kind → (List Word → Except Reject (Instr × List Word)) → Prop where
  | N (i : Instr) (he : encode i = [op]) (hw : i.wf = true) : OpcodeRow op [] (formatN i)
  | V (mk : Value → Instr) (he : ∀ a, encode (mk a) = [op, encodeValue a])
      (hw : ∀ a, (mk a).wf = a.wf) : OpcodeRow op [.V] (formatV mk)
  | T (mk : Reg → Instr) (he : ∀ t, encode (mk t) = [op, encodeReg t])
      (hw : ∀ t, (mk t).wf = true) : OpcodeRow op [.T] (formatT mk)
  | D (mk : Dest → Instr) (he : ∀ d, encode (mk d) = [op, encodeDest d])
      (hw : ∀ d, (mk d).wf = d.wf) : OpcodeRow op [.D] (formatD mk)
  | TV (mk : Reg → Value → Instr)
      (he : ∀ t a, encode (mk t a) = [op, encodeReg t, encodeValue a])
      (hw : ∀ t a, (mk t a).wf = a.wf) : OpcodeRow op [.T, .V] (formatTV mk)
  | VV (mk : Value → Value → Instr)
      (he : ∀ a b, encode (mk a b) = [op, encodeValue a, encodeValue b])
      (hw : ∀ a b, (mk a b).wf = (a.wf && b.wf)) : OpcodeRow op [.V, .V] (formatVV mk)
  | TVV (mk : Reg → Value → Value → Instr)
      (he : ∀ t a b, encode (mk t a b) = [op, encodeReg t, encodeValue a, encodeValue b])
      (hw : ∀ t a b, (mk t a b).wf = (a.wf && b.wf)) : OpcodeRow op [.T, .V, .V] (formatTVV mk)

/-- The decoder follows the opcode map, row by row (R92). -/
theorem opcodeRow_of_number : ∀ (n : Nat) (h : n < opcodeRows.length),
    OpcodeRow (BitVec.ofNat 16 n) opcodeRows[n] (decodeOperands (BitVec.ofNat 16 n))
  | 0, _ => .N .halt rfl rfl
  | 1, _ => .TV .set (fun _ _ => rfl) (fun _ _ => rfl)
  | 2, _ => .V .push (fun _ => rfl) (fun _ => rfl)
  | 3, _ => .T .pop (fun _ => rfl) (fun _ => rfl)
  | 4, _ => .TVV .eq (fun _ _ _ => rfl) (fun _ _ _ => rfl)
  | 5, _ => .TVV .gt (fun _ _ _ => rfl) (fun _ _ _ => rfl)
  | 6, _ => .V .jmp (fun _ => rfl) (fun _ => rfl)
  | 7, _ => .VV .jt (fun _ _ => rfl) (fun _ _ => rfl)
  | 8, _ => .VV .jf (fun _ _ => rfl) (fun _ _ => rfl)
  | 9, _ => .TVV .add (fun _ _ _ => rfl) (fun _ _ _ => rfl)
  | 10, _ => .TVV .mult (fun _ _ _ => rfl) (fun _ _ _ => rfl)
  | 11, _ => .TVV .mod (fun _ _ _ => rfl) (fun _ _ _ => rfl)
  | 12, _ => .TVV .and (fun _ _ _ => rfl) (fun _ _ _ => rfl)
  | 13, _ => .TVV .or (fun _ _ _ => rfl) (fun _ _ _ => rfl)
  | 14, _ => .TV .not (fun _ _ => rfl) (fun _ _ => rfl)
  | 15, _ => .TV .rmem (fun _ _ => rfl) (fun _ _ => rfl)
  | 16, _ => .VV .wmem (fun _ _ => rfl) (fun _ _ => rfl)
  | 17, _ => .V .call (fun _ => rfl) (fun _ => rfl)
  | 18, _ => .N .ret rfl rfl
  | 19, _ => .V .out (fun _ => rfl) (fun _ => rfl)
  | 20, _ => .D .inp (fun _ => rfl) (fun _ => rfl)
  | 21, _ => .N .noop rfl rfl
  | n + 22, h => absurd h (by simp [opcodeRows])

theorem opcodeRow_of_getElem? {op : Word} {kinds : List Kind}
    (h : opcodeRows[op.toNat]? = some kinds) : OpcodeRow op kinds (decodeOperands op) := by
  obtain ⟨hlt, rfl⟩ := List.getElem?_eq_some_iff.1 h
  simpa using opcodeRow_of_number op.toNat hlt

/-- A word above 21 has no row (R93). -/
theorem decodeOperands_of_gt {op : Word} (h : 21 < op.toNat) (ws : List Word) :
    decodeOperands op ws = .error (.unknownOpcode op) := by
  obtain ⟨n, hn⟩ := Nat.exists_eq_add_of_le' (Nat.succ_le_of_lt h)
  unfold decodeOperands
  rw [hn]
  rfl

/-- What a row accepts is the encoding of the instruction it builds. -/
theorem OpcodeRow.eq_encode {op : Word} {kinds : List Kind}
    {parse : List Word → Except Reject (Instr × List Word)} (hrow : OpcodeRow op kinds parse)
    {ws rest : List Word} {i : Instr} (h : parse ws = .ok (i, rest)) :
    i.wf = true ∧ op :: ws = encode i ++ rest := by
  cases hrow with
  | N j he hw =>
    cases h
    exact ⟨hw, by rw [he]; rfl⟩
  | V mk he hw =>
    obtain ⟨a, ha, rfl, rfl⟩ := formatV_eq_ok h
    exact ⟨(hw a).trans ha, by rw [he]; rfl⟩
  | T mk he hw =>
    obtain ⟨t, rfl, rfl⟩ := formatT_eq_ok h
    exact ⟨hw t, by rw [he]; rfl⟩
  | D mk he hw =>
    obtain ⟨d, hd, rfl, rfl⟩ := formatD_eq_ok h
    exact ⟨(hw d).trans hd, by rw [he]; rfl⟩
  | TV mk he hw =>
    obtain ⟨t, a, ha, rfl, rfl⟩ := formatTV_eq_ok h
    exact ⟨(hw t a).trans ha, by rw [he]; rfl⟩
  | VV mk he hw =>
    obtain ⟨a, b, hab, rfl, rfl⟩ := formatVV_eq_ok h
    exact ⟨(hw a b).trans hab, by rw [he]; rfl⟩
  | TVV mk he hw =>
    obtain ⟨t, a, b, hab, rfl, rfl⟩ := formatTVV_eq_ok h
    exact ⟨(hw t a b).trans hab, by rw [he]; rfl⟩

theorem decode_eq_encode {ws rest : List Word} {i : Instr} (h : decode ws = .ok (i, rest)) :
    i.wf = true ∧ ws = encode i ++ rest := by
  cases ws with
  | nil => cases h
  | cons op ws =>
    by_cases hop : 21 < op.toNat
    · cases (decodeOperands_of_gt hop ws).symm.trans h
    · have hlt : op.toNat < opcodeRows.length := Nat.lt_succ_of_le (Nat.le_of_not_lt hop)
      exact (opcodeRow_of_getElem? (List.getElem?_eq_getElem hlt)).eq_encode h

end Sys2Proof

namespace Sys2Proof.Proofs

open Sys2Proof Sys2Proof.Machine

/-- Settles O7, by the format of each instruction. -/
theorem decodingAnEncodedInstructionGivesItBack :
    Obligations.DecodingAnEncodedInstructionGivesItBack :=
  fun _ rest h => decode_encode h rest

/-- Settles O8: the opcode word has a row of the opcode map, and what the row accepts is an
encoding. -/
theorem decodedWordsAreTheEncodingOfAnEncodableInstruction :
    Obligations.DecodedWordsAreTheEncodingOfAnEncodableInstruction :=
  fun _ _ _ h => decode_eq_encode h

/-- Settles O10: the words at `pc` begin with the encoding, which the decoder reads back. -/
theorem stepRunsTheInstructionAtPc : Obligations.StepRunsTheInstructionAtPc := by
  intro s i hr hwf hmem
  have hd : decode s.window = .ok (i, s.window.drop (encode i).length) :=
    (congrArg decode (s.window_eq_append _ (encode_length_le i) hmem)).trans
      (decode_encode hwf _)
  exact step_of_decode hr hd

/-- Settles O9, by running the decoder on the written-out words. -/
theorem sampleWordsDecodeToTheirInstructions :
    Obligations.SampleWordsDecodeToTheirInstructions :=
  ⟨rfl, rfl, rfl, rfl, rfl, rfl, rfl, rfl, rfl, rfl⟩

end Sys2Proof.Proofs
end

section
/-! SUPPORT. The first word that is missing or that its operand kind does not accept (R82, R89). -/

namespace Sys2Proof

open Sys2Proof.Machine

/-! ### The words each operand kind accepts (R82, R86 to R88) -/

theorem decodeValue_isSome (w : Word) : (decodeValue w).isSome = Kind.V.accepts w := by
  simp only [decodeValue, Kind.accepts, regBase]
  split
  · exact (decide_eq_true (by omega)).symm
  · split
    · exact (decide_eq_true (by omega)).symm
    · exact (decide_eq_false (by omega)).symm

theorem decodeTarget_isSome (w : Word) : (decodeTarget w).isSome = Kind.T.accepts w := by
  simp only [decodeTarget, Kind.accepts, regBase]
  split
  · exact (decide_eq_false (by omega)).symm
  · split
    · exact (decide_eq_true (by omega)).symm
    · exact (decide_eq_false (by omega)).symm

theorem decodeDest_isSome (w : Word) : (decodeDest w).isSome = Kind.D.accepts w := by
  simp only [decodeDest, Kind.accepts, memCells, regBase]
  split
  · exact (decide_eq_true (by omega)).symm
  · split
    · exact (decide_eq_true (by omega)).symm
    · exact (decide_eq_false (by omega)).symm

/-- Operand word `n` is refused by name where its kind does not accept it (R94). -/
theorem takeOperand_of_not_accepts {α : Type} {kind : Word → Option α} {k : Kind}
    (hk : ∀ w, (kind w).isSome = k.accepts w) {w : Word} (h : k.accepts w = false) (n : Nat)
    (ws : List Word) : takeOperand kind n (w :: ws) = .error (.badOperand n w) := by
  have hnone : kind w = none := Option.not_isSome_iff_eq_none.1 (by simp [hk w, h])
  simp only [takeOperand, hnone]

/-! ### The first rejection -/

/-- The reason for which words are rejected as operands of the kinds, counted from operand `n` on:
the leftmost word that is missing or refused (R89), and nothing where all of them are accepted. -/
def firstReject : List Kind → Nat → List Word → Option Reject
  | [], _, _ => none
  | _ :: _, n, [] => some (.truncated n)
  | k :: ks, n, w :: ws =>
    if k.accepts w then firstReject ks (n + 1) ws else some (.badOperand n w)

/-- An operand is rejected for the first rejection of the words, or it is taken and the first
rejection is one of the words after it. -/
theorem takeOperand_of_firstReject {α : Type} {kind : Word → Option α} {k : Kind}
    (hk : ∀ w, (kind w).isSome = k.accepts w) {ks : List Kind} {n : Nat} {ws : List Word}
    {r : Reject} (h : firstReject (k :: ks) n ws = some r) :
    takeOperand kind n ws = .error r ∨
      ∃ x rest, takeOperand kind n ws = .ok (x, rest) ∧ firstReject ks (n + 1) rest = some r := by
  cases ws with
  | nil => exact .inl (congrArg Except.error (Option.some.inj h))
  | cons w ws =>
    cases ha : k.accepts w with
    | true =>
      obtain ⟨x, hx⟩ := Option.isSome_iff_exists.1 ((hk w).trans ha)
      exact .inr ⟨x, ws, takeOperand_cons_some hx n ws, by simpa [firstReject, ha] using h⟩
    | false =>
      obtain rfl : .badOperand n w = r := by simpa [firstReject, ha] using h
      exact .inl (takeOperand_of_not_accepts hk ha n ws)

section Formats

variable {ws : List Word} {r : Reject}

theorem formatV_of_firstReject (mk : Value → Instr) (h : firstReject [.V] 1 ws = some r) :
    formatV mk ws = .error r := by
  obtain ht | ⟨_, _, -, hr⟩ := takeOperand_of_firstReject decodeValue_isSome h
  · simp only [formatV, ht]
  · cases hr

theorem formatT_of_firstReject (mk : Reg → Instr) (h : firstReject [.T] 1 ws = some r) :
    formatT mk ws = .error r := by
  obtain ht | ⟨_, _, -, hr⟩ := takeOperand_of_firstReject decodeTarget_isSome h
  · simp only [formatT, ht]
  · cases hr

theorem formatD_of_firstReject (mk : Dest → Instr) (h : firstReject [.D] 1 ws = some r) :
    formatD mk ws = .error r := by
  obtain ht | ⟨_, _, -, hr⟩ := takeOperand_of_firstReject decodeDest_isSome h
  · simp only [formatD, ht]
  · cases hr

theorem formatTV_of_firstReject (mk : Reg → Value → Instr)
    (h : firstReject [.T, .V] 1 ws = some r) : formatTV mk ws = .error r := by
  obtain ht | ⟨_, _, ht, h⟩ := takeOperand_of_firstReject decodeTarget_isSome h
  · simp only [formatTV, ht]
  obtain ha | ⟨_, _, -, hr⟩ := takeOperand_of_firstReject decodeValue_isSome h
  · simp only [formatTV, ht, ha]
  · cases hr

theorem formatVV_of_firstReject (mk : Value → Value → Instr)
    (h : firstReject [.V, .V] 1 ws = some r) : formatVV mk ws = .error r := by
  obtain ha | ⟨_, _, ha, h⟩ := takeOperand_of_firstReject decodeValue_isSome h
  · simp only [formatVV, ha]
  obtain hb | ⟨_, _, -, hr⟩ := takeOperand_of_firstReject decodeValue_isSome h
  · simp only [formatVV, ha, hb]
  · cases hr

theorem formatTVV_of_firstReject (mk : Reg → Value → Value → Instr)
    (h : firstReject [.T, .V, .V] 1 ws = some r) : formatTVV mk ws = .error r := by
  obtain ht | ⟨_, _, ht, h⟩ := takeOperand_of_firstReject decodeTarget_isSome h
  · simp only [formatTVV, ht]
  obtain ha | ⟨_, _, ha, h⟩ := takeOperand_of_firstReject decodeValue_isSome h
  · simp only [formatTVV, ht, ha]
  obtain hb | ⟨_, _, -, hr⟩ := takeOperand_of_firstReject decodeValue_isSome h
  · simp only [formatTVV, ht, ha, hb]
  · cases hr

/-- A row rejects its words for their first rejection. -/
theorem OpcodeRow.eq_error {op : Word} {kinds : List Kind}
    {parse : List Word → Except Reject (Instr × List Word)} (hrow : OpcodeRow op kinds parse)
    (h : firstReject kinds 1 ws = some r) : parse ws = .error r := by
  cases hrow with
  | N => cases h
  | V mk => exact formatV_of_firstReject mk h
  | T mk => exact formatT_of_firstReject mk h
  | D mk => exact formatD_of_firstReject mk h
  | TV mk => exact formatTV_of_firstReject mk h
  | VV mk => exact formatVV_of_firstReject mk h
  | TVV mk => exact formatTVV_of_firstReject mk h

end Formats

/-! ### The first rejection of the words in memory -/

theorem opcodeRows_length_lt : ∀ kinds ∈ opcodeRows, kinds.length < maxLength := by decide

/-- The words that their kinds accept are passed over (R89). -/
theorem firstReject_wordsFrom (m : Memory) {kinds : List Kind} {n : Nat} (l j a : Nat)
    (hn : n ≤ kinds.length) (ha : a + n ≤ memCells)
    (hgood : ∀ k (hk : k < n), kinds[k].accepts (m.get (a + k)) = true) :
    firstReject kinds j (m.wordsFrom (n + l) a) =
      firstReject (kinds.drop n) (j + n) (m.wordsFrom l (a + n)) := by
  induction n generalizing kinds j a with
  | zero => simp
  | succ n ih =>
    cases kinds with
    | nil => simp at hn
    | cons k ks =>
      have hlen : n ≤ ks.length := Nat.le_of_succ_le_succ hn
      have hrest : ∀ i (hi : i < n), ks[i].accepts (m.get (a + 1 + i)) = true := fun i hi => by
        simpa [Nat.add_assoc, Nat.add_comm 1] using hgood (i + 1) (Nat.succ_lt_succ hi)
      have hk : k.accepts (m.get a) = true := hgood 0 n.succ_pos
      have hlt : a < memCells := by omega
      have ih' := ih (j + 1) (a + 1) hlen (by omega) hrest
      rw [Nat.add_right_comm n 1 l, Memory.wordsFrom, if_pos hlt, firstReject, if_pos hk, ih',
        List.drop_succ_cons, Nat.add_assoc, Nat.add_assoc, Nat.add_comm 1 n]

end Sys2Proof

namespace Sys2Proof.Machine

open Sys2Proof

theorem State.window_eq_cons {s : State} (h : s.pc.toNat < memCells) :
    s.window = s.mem.get s.pc.toNat :: s.mem.wordsFrom 3 (s.pc.toNat + 1) := if_pos h

section OperandWords

variable {s : State} {kinds : List Kind}

/-- A step whose operand words have a first rejection takes the fault of it (R94, R96). -/
theorem step_of_firstReject {r : Reject} (hr : s.run = .running) (hpc : s.pc.toNat < memCells)
    (hrow : opcodeRows[(s.mem.get s.pc.toNat).toNat]? = some kinds)
    (h : firstReject kinds 1 (s.mem.wordsFrom 3 (s.pc.toNat + 1)) = some r) :
    step s = .next (s.raiseReject r) := by
  refine step_of_reject hr ?_
  rw [State.window_eq_cons hpc]
  exact (opcodeRow_of_getElem? hrow).eq_error h

/-- Where the operand words before position `n` are accepted, the first rejection is decided from
position `n` on. -/
theorem firstReject_after_good {n : Nat} (hn : n < kinds.length)
    (hrow : opcodeRows[(s.mem.get s.pc.toNat).toNat]? = some kinds)
    (hpc : s.pc.toNat + 1 + n ≤ memCells)
    (hgood : ∀ k (hk : k < n), kinds[k].accepts (s.mem.get (s.pc.toNat + 1 + k)) = true) :
    ∃ l, firstReject kinds 1 (s.mem.wordsFrom 3 (s.pc.toNat + 1)) =
      firstReject (kinds[n] :: kinds.drop (n + 1)) (1 + n)
        (s.mem.wordsFrom (l + 1) (s.pc.toNat + 1 + n)) := by
  have hlen := opcodeRows_length_lt kinds (List.mem_of_getElem? hrow)
  obtain ⟨l, hl⟩ : ∃ l, 3 = n + (l + 1) := ⟨2 - n, by simp only [maxLength] at hlen; omega⟩
  refine ⟨l, ?_⟩
  rw [hl, firstReject_wordsFrom s.mem (l + 1) 1 _ hn.le hpc hgood, List.drop_eq_getElem_cons hn]

/-- The leftmost operand word that is refused is the first rejection. -/
theorem firstReject_of_bad {n : Nat} (hn : n < kinds.length)
    (hrow : opcodeRows[(s.mem.get s.pc.toNat).toNat]? = some kinds)
    (hpc : s.pc.toNat + 1 + n < memCells)
    (hgood : ∀ k (hk : k < n), kinds[k].accepts (s.mem.get (s.pc.toNat + 1 + k)) = true)
    (hbad : kinds[n].accepts (s.mem.get (s.pc.toNat + 1 + n)) = false) :
    firstReject kinds 1 (s.mem.wordsFrom 3 (s.pc.toNat + 1)) =
      some (.badOperand (1 + n) (s.mem.get (s.pc.toNat + 1 + n))) := by
  obtain ⟨l, h⟩ := firstReject_after_good hn hrow hpc.le hgood
  rw [h, Memory.wordsFrom, if_pos hpc, firstReject, hbad]
  rfl

/-- The first operand word for which there is no cell is the first rejection. -/
theorem firstReject_of_missing {n : Nat} (hn : n < kinds.length)
    (hrow : opcodeRows[(s.mem.get s.pc.toNat).toNat]? = some kinds)
    (hpc : s.pc.toNat + 1 + n = memCells)
    (hgood : ∀ k (hk : k < n), kinds[k].accepts (s.mem.get (s.pc.toNat + 1 + k)) = true) :
    firstReject kinds 1 (s.mem.wordsFrom 3 (s.pc.toNat + 1)) = some (.truncated (1 + n)) := by
  obtain ⟨l, h⟩ := firstReject_after_good hn hrow hpc.le hgood
  rw [h, Memory.wordsFrom, if_neg hpc.not_lt, firstReject]

end OperandWords

end Sys2Proof.Machine

namespace Sys2Proof.Proofs

open Sys2Proof Sys2Proof.Machine

/-- Settles O15: the opcode word has no row. -/
theorem opcodeWordsAboveTwentyOneFault : Obligations.OpcodeWordsAboveTwentyOneFault := by
  intro s hr hpc hop
  have hd : decode s.window = .error (.unknownOpcode (s.mem.get s.pc.toNat)) := by
    rw [State.window_eq_cons (Nat.lt_succ_of_le hpc)]
    exact decodeOperands_of_gt hop _
  exact ⟨_, _, step_of_reject hr hd, rfl, rfl, s.raiseReject_keepsData _⟩

/-- Settles O16: the leftmost refused operand word is the first rejection. -/
theorem firstBadOperandWordFaults : Obligations.FirstBadOperandWordFaults := by
  intro s kinds n hn hr hpc hrow hgood hbad
  have hcell : s.pc.toNat + 1 + n < memCells := Nat.lt_succ_of_le hpc
  have hrej := firstReject_of_bad hn hrow hcell hgood hbad
  refine ⟨_, step_of_firstReject hr (by omega) hrow hrej, rfl, ?_, s.raiseReject_keepsData _⟩
  have hwords : 1 + (1 + n) = 2 + n := by omega
  exact congrArg (fun k => s.pc + BitVec.ofNat 16 k) hwords

/-- Settles O17: the operand word without a cell is the first rejection. -/
theorem operandFetchAboveMemoryFaults : Obligations.OperandFetchAboveMemoryFaults := by
  intro s kinds n hn hr hpc hrow hgood
  have hrej := firstReject_of_missing hn hrow hpc hgood
  have hend : (s.advance (1 + n)).pc = 32768 := BitVec.eq_of_toNat_eq (by simp; omega)
  exact ⟨_, step_of_firstReject hr (by simp only [memCells]; omega) hrow hrej,
    congrArg (Run.faulted .memoryBoundsError · s.pc) hend, hend, s.raiseReject_keepsData _⟩

/-- Settles O11: an accepted word is the word of its operand, and every other word is refused. -/
theorem valueOperandsResolveToLiteralOrRegister :
    Obligations.ValueOperandsResolveToLiteralOrRegister := by
  refine fun s w n ws => ⟨fun h => ?_, fun i h => ?_, fun h => ?_⟩
  · have hwf : (Value.lit w).wf = true := decide_eq_true (Nat.lt_succ_of_le h)
    exact ⟨.lit w, takeOperand_encodeValue hwf n ws, rfl⟩
  · obtain rfl := encodeReg_of_toNat h
    exact ⟨.reg i, takeOperand_encodeValue (a := .reg i) rfl n ws, rfl⟩
  · have hbad : Kind.V.accepts w = false := decide_eq_false (Nat.not_le.2 h)
    exact ⟨_, _, takeOperand_of_not_accepts decodeValue_isSome hbad n ws, rfl⟩

/-- Settles O12: the word of a register names it, and every other word is refused. -/
theorem targetOperandsNameARegister : Obligations.TargetOperandsNameARegister := by
  refine fun s w n ws => ⟨fun i h => ?_, fun h => ?_⟩
  · obtain rfl := encodeReg_of_toNat h
    exact takeOperand_encodeReg i n ws
  · have hbad : Kind.T.accepts w = false := decide_eq_false (by omega)
    exact ⟨_, _, takeOperand_of_not_accepts decodeTarget_isSome hbad n ws, rfl⟩

/-- Settles O13: an accepted word is the word of its destination, and every other word is
refused. -/
theorem inputDestinationsNameACellOrARegister :
    Obligations.InputDestinationsNameACellOrARegister := by
  refine fun s w n ws => ⟨fun h => ?_, fun i h => ?_, fun h => ?_⟩
  · have hwf : (Dest.mem w).wf = true := decide_eq_true (Nat.lt_succ_of_le h)
    exact takeOperand_encodeDest hwf n ws
  · obtain rfl := encodeReg_of_toNat h
    exact takeOperand_encodeDest (d := .reg i) rfl n ws
  · have hbad : Kind.D.accepts w = false := decide_eq_false (Nat.not_le.2 h)
    exact ⟨_, takeOperand_of_not_accepts decodeDest_isSome hbad n ws, rfl⟩

end Sys2Proof.Proofs
end

section
/-! SUPPORT. The one instruction that can wait (R85, R194). -/

namespace Sys2Proof.Machine

open Sys2Proof

/-- Every instruction but `in` has a next state. -/
theorem exec_isNext {i : Instr} (s : State) (hi : ∀ d, i ≠ .inp d) : ∃ t, exec i s = .next t := by
  cases i with
  | inp d => exact absurd rfl (hi d)
  | mod | jt | jf | out | push | call | pop | ret | rmem | wmem =>
    simp only [exec, execMod, execJt, execJf, execOut, execPush, execCall, execPop, execRet,
      execRmem, execWmem]
    split <;> exact ⟨_, rfl⟩
  | _ => exact ⟨_, rfl⟩

/-- `in` has a next state unless the environment has not answered (R194). -/
theorem exec_inp_isNext_or_waits (s : State) (d : Dest) :
    (∃ t, exec (.inp d) s = .next t) ∨
      (exec (.inp d) s = .fault .waitingForInput ∧ s.inChar = .waiting) := by
  simp only [exec, execIn]
  cases s.inChar with
  | waiting => exact .inr ⟨rfl, rfl⟩
  | eof => exact .inl ⟨_, rfl⟩
  | char c =>
    dsimp only
    cases (s.advance 2).writeSlot d (c.setWidth 16) <;> exact .inl ⟨_, rfl⟩

end Sys2Proof.Machine

namespace Sys2Proof.Proofs

open Sys2Proof Sys2Proof.Machine

/-- Settles O21: words that are no instruction give a fault, which is a next state, and of the
instructions only `in` can wait. -/
theorem runningMachineStepsUnlessItWaitsForInput :
    Obligations.RunningMachineStepsUnlessItWaitsForInput := by
  intro s hr
  cases hd : decode s.window with
  | error r => exact .inl ⟨_, step_of_reject hr hd⟩
  | ok p =>
    obtain ⟨i, rest⟩ := p
    rw [step_of_decode hr hd]
    by_cases hi : ∃ d, i = .inp d
    · obtain ⟨d, rfl⟩ := hi
      obtain hnext | ⟨hx, hwait⟩ := exec_inp_isNext_or_waits s d
      · exact .inl hnext
      · exact .inr ⟨hx, hwait, d, rest, rfl⟩
    · exact .inl (exec_isNext s fun d e => hi ⟨d, e⟩)

end Sys2Proof.Proofs
end

section
/-! SUPPORT. The meanings of `halt` and `noop` (R110, R111). -/

namespace Sys2Proof.Machine

open Sys2Proof

theorem exec_halt (s : State) :
    exec .halt s = .next ((s.advance 1).haltFor .haltInstruction) := rfl

theorem exec_noop (s : State) : exec .noop s = .next (s.advance 1) := rfl

end Sys2Proof.Machine

namespace Sys2Proof.Proofs

open Sys2Proof Sys2Proof.Machine

/-- Settles O31: the state `halt` leaves is HALTED, and only a RUNNING machine steps. -/
theorem haltEndsTheRun : Obligations.HaltEndsTheRun := by
  refine ⟨rfl, fun s => ⟨_, exec_halt s, rfl, rfl, s.haltFor_keepsData _ _, fun u hu => ?_⟩⟩
  have hrun := onlyARunningMachineSteps.1 _ u hu
  cases hrun

/-- Settles O32: after a `noop` at 32767 the next opcode fetch is at 32768, above the last cell. -/
theorem noopOnlyAdvancesPc : Obligations.NoopOnlyAdvancesPc := by
  refine ⟨rfl, fun s => ⟨_, exec_noop s, rfl, rfl, s.setPc_keepsData _, fun hr hpc => ?_⟩⟩
  have hpc' : (s.advance 1).pc = 32768 := by
    rw [State.pc_advance, hpc]
    rfl
  obtain ⟨u, hu, hfault, -, -⟩ :=
    opcodeFetchAboveMemoryFaults (s.advance 1) hr (by rw [hpc']; decide)
  rw [hpc'] at hfault
  exact ⟨u, _, hu, hfault⟩

end Sys2Proof.Proofs
end

section
/-! SUPPORT. The meanings of `set`, `push` and `pop` (R120, R124, R126). -/

namespace Sys2Proof.Machine

open Sys2Proof

theorem exec_set (t : Reg) (a : Value) (s : State) :
    exec (.set t a) s = .next (s.writeBack 3 t (s.value a)) := rfl

theorem exec_pop_of_nil {s : State} (t : Reg) (h : s.stack = []) :
    exec (.pop t) s = .next (s.fail 2 .stackUnderflowError 0) := by
  simp [exec, execPop, h]

/-- The stack is no part of the frame of registers and cells. -/
theorem KeepsBut.of_setStack {regs : List Reg} {cells : List Nat} {s t : State} {st : List Word}
    (h : KeepsBut regs cells (s.setStack st) t) : KeepsBut regs cells s t :=
  ⟨h.regs, h.mem, h.input, h.cfg⟩

end Sys2Proof.Machine

namespace Sys2Proof.Proofs

open Sys2Proof Sys2Proof.Machine

/-- Settles O36: with an entry on the stack, `pop` ends in the write of that entry to its register;
with none, in a fault of `Execute`. -/
theorem popTakesTheTopOrFaults : Obligations.PopTakesTheTopOrFaults := by
  intro s t
  constructor
  · intro v rest hs
    have hframe : KeepsBut [t] [] s ((s.setStack rest).writeBack 2 t v) :=
      .of_setStack ((s.setStack rest).writeBack_onlyWritesReg 2 t v).rest
    exact ⟨_, exec_pop_of_cons t hs, State.reg_writeBack_same _ _ _ _, rfl, rfl, hframe, rfl, rfl,
      rfl⟩
  · intro hs
    exact ⟨_, exec_pop_of_nil t hs, rfl, rfl, s.fail_keepsData _ _ _⟩

/-- Settles O33: `set` ends in the write of the resolved value to its register. -/
theorem setCopiesTheValue : Obligations.SetCopiesTheValue :=
  fun s t a => ⟨_, exec_set t a s, s.reg_writeBack_same _ _ _, s.writeBack_onlyWritesReg _ _ _⟩

/-- Settles O34: on a stack that is not full, `push` replaces `pc` and the stack alone. -/
theorem pushPutsTheValueOnTop : Obligations.PushPutsTheValueOnTop :=
  fun _ a hf => ⟨_, exec_push_of_not_full a hf, rfl, rfl, .of_eq rfl rfl rfl rfl, rfl, rfl, rfl⟩

end Sys2Proof.Proofs
end

section
/-! SUPPORT. The meanings of `eq` and `gt` as numbers (R41, R130, R131). -/

namespace Sys2Proof.Machine

open Sys2Proof

theorem exec_eq (t : Reg) (a b : Value) (s : State) :
    exec (.eq t a b) s = .next (s.writeBack 4 t (aluEq (s.value a) (s.value b))) := rfl

theorem exec_gt (t : Reg) (a b : Value) (s : State) :
    exec (.gt t a b) s = .next (s.writeBack 4 t (aluGt (s.value a) (s.value b))) := rfl

theorem truthWord_decide_toNat (p : Prop) [Decidable p] :
    (truthWord (decide p)).toNat = if p then 1 else 0 := by
  by_cases h : p
  · rw [decide_eq_true h, if_pos h]
    rfl
  · rw [decide_eq_false h, if_neg h]
    rfl

/-- Words are equal where they are equal as numbers, on all 16 bits (decision D11). -/
theorem aluEq_toNat (a b : Word) : (aluEq a b).toNat = if a.toNat = b.toNat then 1 else 0 := by
  simp only [aluEq, truthWord_decide_toNat, BitVec.toNat_inj]

theorem aluGt_toNat (a b : Word) : (aluGt a b).toNat = if a.toNat > b.toNat then 1 else 0 :=
  truthWord_decide_toNat _

end Sys2Proof.Machine

namespace Sys2Proof.Proofs

open Sys2Proof Sys2Proof.Machine

/-- Settles O38: `eq` and `gt` end in the write of their ALU result, which is the truth value of the
comparison of the operands as numbers. -/
theorem comparisonsWriteOneOrZero : Obligations.ComparisonsWriteOneOrZero := by
  intro s t a b
  constructor
  · refine ⟨_, exec_eq t a b s, ?_, s.writeBack_onlyWritesReg _ _ _⟩
    rw [State.reg_writeBack_same, aluEq_toNat]
  · refine ⟨_, exec_gt t a b s, ?_, s.writeBack_onlyWritesReg _ _ _⟩
    rw [State.reg_writeBack_same, aluGt_toNat]

end Sys2Proof.Proofs
end

section
/-! SUPPORT. The meanings of `jmp`, `jt`, `jf` and `ret` as loads of `pc` (R27, R140 to R150). -/

namespace Sys2Proof.Machine

open Sys2Proof

theorem exec_jmp (a : Value) (s : State) : exec (.jmp a) s = .next (s.setPc (s.value a)) := rfl

theorem word_toNat_eq_zero_iff (w : Word) : w.toNat = 0 ↔ w = 0 := BitVec.toNat_inj (y := 0)

/-- Jumping or falling through, `jt` sets `pc` and nothing else (R142). -/
theorem exec_jt (a b : Value) (s : State) :
    exec (.jt a b) s =
      .next (s.setPc (if (s.value a).toNat = 0 then s.pc + 3 else s.value b)) := by
  simp only [exec, execJt, word_toNat_eq_zero_iff]
  by_cases h : s.value a = 0
  · rw [if_pos h, if_neg (not_not.2 h)]
    rfl
  · rw [if_neg h, if_pos h]
    rfl

/-- Jumping or falling through, `jf` sets `pc` and nothing else (R144). -/
theorem exec_jf (a b : Value) (s : State) :
    exec (.jf a b) s =
      .next (s.setPc (if (s.value a).toNat = 0 then s.value b else s.pc + 3)) := by
  simp only [exec, execJf, word_toNat_eq_zero_iff]
  by_cases h : s.value a = 0
  · rw [if_pos h, if_pos h]
    rfl
  · rw [if_neg h, if_neg h]
    rfl

theorem exec_ret_of_cons {s : State} {v : Word} {rest : List Word} (h : s.stack = v :: rest) :
    exec .ret s = .next (((s.advance 1).setStack rest).setPc v) := by
  simp only [exec, execRet, h]

theorem exec_ret_of_nil {s : State} (h : s.stack = []) :
    exec .ret s = .next ((s.advance 1).haltFor .retEmptyStack) := by
  simp only [exec, execRet, h]

/-- A `jmp` whose operand word no value operand has is refused at that word (R86, R94). -/
theorem decode_jmp_of_not_accepts {w : Word} (h : Kind.V.accepts w = false) (ws : List Word) :
    decode (6 :: w :: ws) = .error (.badOperand 1 w) := by
  have hrej : firstReject [.V] 1 (w :: ws) = some (.badOperand 1 w) := if_neg (by simp [h])
  exact formatV_of_firstReject .jmp hrej

/-- A target above the last cell is where the next opcode fetch fails (R28, R140). -/
theorem step_setPc_above_memory_faults {s : State} {target : Word} (hr : s.run = .running)
    (h : 32767 < target.toNat) :
    ∃ t, step (s.setPc target) = .next t ∧ t.run = .faulted .memoryBoundsError target target := by
  obtain ⟨t, ht, hfault, -, -⟩ := Proofs.opcodeFetchAboveMemoryFaults (s.setPc target) hr h
  exact ⟨t, ht, hfault⟩

/-- A machine at a cell that holds the word of `ret` runs `ret` (R85). -/
theorem step_of_ret_at_pc {s : State} (hr : s.run = .running) (hpc : s.pc.toNat < memCells)
    (hw : encode .ret = [s.mem.get s.pc.toNat]) : step s = exec .ret s :=
  Proofs.stepRunsTheInstructionAtPc s .ret hr rfl fun k hk => by
    obtain rfl : k = 0 := Nat.lt_one_iff.1 hk
    exact ⟨hpc, by simp [hw]⟩

end Sys2Proof.Machine

namespace Sys2Proof.Proofs

open Sys2Proof Sys2Proof.Machine

/-- Settles O40: each of the two sets `pc` alone, to its target or to the address after
its words. -/
theorem conditionalJumpsTestForZero : Obligations.ConditionalJumpsTestForZero :=
  fun s a b =>
    ⟨⟨_, exec_jt a b s, rfl, rfl, s.setPc_keepsData _⟩,
      ⟨_, exec_jf a b s, rfl, rfl, s.setPc_keepsData _⟩⟩

/-- Settles O47: on a stack that is not full, `call` replaces the stack and `pc` alone. -/
theorem callPushesTheReturnAddress : Obligations.CallPushesTheReturnAddress :=
  fun _ a hf => ⟨_, exec_call_of_not_full a hf, rfl, rfl, .of_eq rfl rfl rfl rfl, rfl, rfl, rfl⟩

/-- Settles O48, by the stack: a popped entry above the last cell is where the next opcode fetch
fails. -/
theorem retPopsPcOrEndsTheRun : Obligations.RetPopsPcOrEndsTheRun := by
  refine ⟨rfl, fun s => ⟨fun v rest hs => ?_, fun hs => ?_⟩⟩
  · refine ⟨_, exec_ret_of_cons hs, rfl, rfl, .of_eq rfl rfl rfl rfl, rfl, rfl, rfl,
      fun hr hv => ?_⟩
    obtain ⟨w, hw, hfault⟩ :=
      step_setPc_above_memory_faults (s := (s.advance 1).setStack rest) hr hv
    exact ⟨w, _, _, hw, hfault⟩
  · exact ⟨_, exec_ret_of_nil hs, rfl, rfl, s.haltFor_keepsData _ _⟩

/-- Settles O49: the `ret` at the target finds on top the address that the `call` has pushed. -/
theorem callThenRetResumesAfterTheCall : Obligations.CallThenRetResumesAfterTheCall := by
  intro s a rest hr hd hf ha hret
  have hcall := (step_of_decode hr hd).trans (exec_call_of_not_full a hf)
  have hstep := step_of_ret_at_pc
    (s := ((s.advance 2).setStack ((s.pc + 2) :: s.stack)).setPc (s.value a)) hr
    (Nat.lt_succ_of_le ha) hret
  exact ⟨_, _, hcall, rfl, hstep.trans (exec_ret_of_cons rfl), rfl, rfl, hr,
    .of_eq rfl rfl rfl rfl⟩

/-- Settles O39: the operand word is checked, the target is not. -/
theorem jmpLoadsPc : Obligations.JmpLoadsPc := by
  refine fun s a => ⟨rfl, fun w ws h => ?_, _, exec_jmp a s, rfl, rfl, s.setPc_keepsData _,
    step_setPc_above_memory_faults⟩
  exact decode_jmp_of_not_accepts (decide_eq_false (Nat.not_le.2 h)) ws

end Sys2Proof.Proofs
end

section
/-! SUPPORT. The meanings of `add`, `mult`, `and`, `or` and `not`, and the ALU's remainder, bits and
complement (R41, R160 to R165). -/

namespace Sys2Proof.Machine

open Sys2Proof

theorem exec_add (t : Reg) (a b : Value) (s : State) :
    exec (.add t a b) s = .next (s.writeBack 4 t (aluAdd (s.value a) (s.value b))) := rfl

theorem exec_mult (t : Reg) (a b : Value) (s : State) :
    exec (.mult t a b) s = .next (s.writeBack 4 t (aluMult (s.value a) (s.value b))) := rfl

theorem exec_and (t : Reg) (a b : Value) (s : State) :
    exec (.and t a b) s = .next (s.writeBack 4 t (aluAnd (s.value a) (s.value b))) := rfl

theorem exec_or (t : Reg) (a b : Value) (s : State) :
    exec (.or t a b) s = .next (s.writeBack 4 t (aluOr (s.value a) (s.value b))) := rfl

theorem exec_not (t : Reg) (a : Value) (s : State) :
    exec (.not t a) s = .next (s.writeBack 3 t (aluNot (s.value a))) := rfl

/-- The dividend is the quotient times the divisor plus the remainder, as whole numbers (R162). -/
theorem toNat_eq_div_mul_add_aluMod (a b : Word) :
    a.toNat = a.toNat / b.toNat * b.toNat + (aluMod a b).toNat := by
  rw [aluMod_toNat, Nat.div_add_mod']

theorem aluMod_toNat_lt (a : Word) {b : Word} (hb : b.toNat ≠ 0) :
    (aluMod a b).toNat < b.toNat := by
  rw [aluMod_toNat]
  exact Nat.mod_lt _ (Nat.pos_of_ne_zero hb)

theorem aluAnd_getLsbD_iff (a b : Word) (k : Nat) :
    (aluAnd a b).getLsbD k = true ↔ a.getLsbD k = true ∧ b.getLsbD k = true := by
  rw [aluAnd, BitVec.getLsbD_and, Bool.and_eq_true]

theorem aluOr_getLsbD_iff (a b : Word) (k : Nat) :
    (aluOr a b).getLsbD k = true ↔ a.getLsbD k = true ∨ b.getLsbD k = true := by
  rw [aluOr, BitVec.getLsbD_or, Bool.or_eq_true]

/-- The mask of `not` is a reduction modulo 32768, which takes the complement in 16 bits to the one
in 15 (R165, decision D10). -/
theorem aluNot_toNat (a : Word) : (aluNot a).toNat = 32767 - a.toNat % 32768 := by
  have hmask : (aluNot a).toNat = (~~~a).toNat % 2 ^ 15 := by
    rw [aluNot, BitVec.toNat_and]
    exact Nat.and_two_pow_sub_one_eq_mod _ 15
  have ha := a.isLt
  rw [hmask, BitVec.toNat_not]
  omega

end Sys2Proof.Machine

namespace Sys2Proof.Proofs

open Sys2Proof Sys2Proof.Machine

/-- Settles O41: `add` and `mult` end in the write of their ALU result, which is the exact result
modulo 32768. -/
theorem addAndMultReduceModulo32768 : Obligations.AddAndMultReduceModulo32768 := by
  intro s t a b
  constructor
  · refine ⟨_, exec_add t a b s, ?_, s.writeBack_onlyWritesReg _ _ _⟩
    rw [State.reg_writeBack_same, aluAdd_toNat]
  · refine ⟨_, exec_mult t a b s, ?_, s.writeBack_onlyWritesReg _ _ _⟩
    rw [State.reg_writeBack_same, aluMult_toNat]

/-- Settles O42, by the divisor: where it is not zero, the quotient is that of the natural numbers;
where it is, `mod` ends in a fault of `Execute`. -/
theorem modWritesTheRemainderOrFaults : Obligations.ModWritesTheRemainderOrFaults := by
  intro s t a b
  constructor
  · intro hb
    have hne : s.value b ≠ 0 := mt (word_toNat_eq_zero_iff _).2 hb
    refine ⟨_, (s.value a).toNat / (s.value b).toNat, exec_mod_of_ne_zero t a hne, ?_, ?_,
      s.writeBack_onlyWritesReg _ _ _⟩
    · rw [State.reg_writeBack_same]
      exact toNat_eq_div_mul_add_aluMod _ _
    · rw [State.reg_writeBack_same]
      exact aluMod_toNat_lt _ hb
  · intro hb
    exact ⟨_, exec_mod_of_zero t a ((word_toNat_eq_zero_iff _).1 hb), rfl, rfl,
      s.fail_keepsData _ _ _⟩

/-- Settles O43: `and` and `or` end in the write of their ALU result, whose bits are those of the
operands combined one by one. -/
theorem andAndOrWorkBitByBit : Obligations.AndAndOrWorkBitByBit := by
  intro s t a b
  constructor
  · refine ⟨_, exec_and t a b s, fun k _ => ?_, s.writeBack_onlyWritesReg _ _ _⟩
    rw [State.reg_writeBack_same]
    exact aluAnd_getLsbD_iff _ _ k
  · refine ⟨_, exec_or t a b s, fun k _ => ?_, s.writeBack_onlyWritesReg _ _ _⟩
    rw [State.reg_writeBack_same]
    exact aluOr_getLsbD_iff _ _ k

/-- Settles O44: `not` ends in the write of the masked complement to its register. -/
theorem notComplementsFifteenBits : Obligations.NotComplementsFifteenBits := by
  intro s t a
  refine ⟨_, exec_not t a s, ?_, s.writeBack_onlyWritesReg _ _ _⟩
  rw [State.reg_writeBack_same, aluNot_toNat]

end Sys2Proof.Proofs
end

section
/-! SUPPORT. The meanings of `rmem` and `wmem` on each side of the bound (R51, R180, R181). -/

namespace Sys2Proof.Machine

open Sys2Proof

theorem exec_rmem_of_lt {s : State} (t : Reg) {a : Value} (h : (s.value a).toNat < memCells) :
    exec (.rmem t a) s = .next (s.writeBack 3 t (s.mem.get (s.value a).toNat)) := by
  simp only [exec, execRmem, s.memRead_of_lt h]

theorem exec_rmem_of_not_lt {s : State} (t : Reg) {a : Value}
    (h : ¬(s.value a).toNat < memCells) :
    exec (.rmem t a) s = .next (s.fail 3 .memoryBoundsError (s.value a)) := by
  simp only [exec, execRmem, s.memRead_of_not_lt h]

theorem exec_wmem_of_not_lt {s : State} {a : Value} (b : Value)
    (h : ¬(s.value a).toNat < memCells) :
    exec (.wmem a b) s = .next (s.fail 3 .memoryBoundsError (s.value a)) := by
  simp only [exec, execWmem, (s.advance 3).memWrite_of_not_lt (s.value b) h]

/-- `pc` is no part of the frame of registers and cells. -/
theorem KeepsBut.of_advance {regs : List Reg} {cells : List Nat} {s t : State} {n : Nat}
    (h : KeepsBut regs cells (s.advance n) t) : KeepsBut regs cells s t :=
  ⟨h.regs, h.mem, h.input, h.cfg⟩

end Sys2Proof.Machine

namespace Sys2Proof.Proofs

open Sys2Proof Sys2Proof.Machine

/-- Settles O45, by the bounds check: below the bound `rmem` ends in the write of the cell to its
register, above it in a fault of `Execute`. -/
theorem rmemLoadsTheCellOrFaults : Obligations.RmemLoadsTheCellOrFaults := by
  intro s t a
  constructor
  · intro ha
    exact ⟨_, exec_rmem_of_lt t (Nat.lt_succ_of_le ha), s.reg_writeBack_same _ _ _,
      s.writeBack_onlyWritesReg _ _ _⟩
  · intro ha
    exact ⟨_, exec_rmem_of_not_lt t (Nat.not_lt.2 ha), rfl, rfl, s.fail_keepsData _ _ _⟩

/-- Settles O46, by the bounds check: below the bound `wmem` replaces `pc` and the one cell, and
above the bound it ends in a fault of `Execute`. -/
theorem wmemStoresTheValueOrFaults : Obligations.WmemStoresTheValueOrFaults := by
  intro s a b
  constructor
  · intro ha
    exact ⟨_, exec_wmem_of_lt b (Nat.lt_succ_of_le ha), s.mem.get_set_same _ _,
      .of_advance ((s.advance 3).setMem_keepsBut _ _), rfl, rfl, rfl, rfl, rfl⟩
  · intro ha
    exact ⟨_, exec_wmem_of_not_lt b (Nat.not_lt.2 ha), rfl, rfl, s.fail_keepsData _ _ _⟩

end Sys2Proof.Proofs
end

section
/-! SUPPORT. The meaning of `in` for each answer of the environment, and what the environment's acts
do to that answer (R191, R194, R196). -/

namespace Sys2Proof.Machine

open Sys2Proof

theorem exec_inp_reg_of_char {s : State} {c : Byte} (r : Reg) (h : s.inChar = .char c) :
    exec (.inp (.reg r)) s = .next (s.writeBack 2 r (c.setWidth 16)).consume := by
  simp only [exec, execIn, h]
  rfl

theorem exec_inp_mem_of_char {s : State} {c : Byte} {a : Word} (h : s.inChar = .char c)
    (ha : a.toNat < memCells) :
    exec (.inp (.mem a)) s =
      .next ((s.advance 2).setMem (s.mem.set a.toNat (c.setWidth 16))).consume := by
  simp only [exec, execIn, h, State.writeSlot, State.memWrite_of_lt _ _ ha, State.mem_advance]

theorem exec_inp_of_eof {s : State} (d : Dest) (h : s.inChar = .eof) :
    exec (.inp d) s = .next ((s.advance 2).haltFor .inputExhausted) := by
  simp only [exec, execIn, h]

theorem exec_inp_of_waiting {s : State} (d : Dest) (h : s.inChar = .waiting) :
    exec (.inp d) s = .fault .waitingForInput := by
  simp only [exec, execIn, h]

/-- The input position is no part of the frame of registers and cells. -/
theorem KeepsBut.consume {regs : List Reg} {cells : List Nat} {s t : State}
    (h : KeepsBut regs cells s t) : KeepsBut regs cells s t.consume :=
  ⟨h.regs, h.mem, h.input, h.cfg⟩

/-- A byte is zero-extended to a word (R196, decision D12). -/
theorem byte_setWidth_toNat (c : Byte) : (c.setWidth 16).toNat = c.toNat :=
  BitVec.toNat_setWidth_of_le (by decide)

/-- A byte supplied to a stream that has not ended comes after those that have arrived (R191). -/
theorem State.supply_of_not_ended {s : State} (c : Byte) (h : s.input.ended = false) :
    s.supply c = { s with input := { s.input with bytes := s.input.bytes ++ [c] } } :=
  if_neg (by simp [h])

/-- Where every byte that arrived is consumed, the next byte is the one supplied (R191, R192). -/
theorem State.supply_bytes_getElem? {s : State} (c : Byte) (h : s.input.ended = false)
    (hn : s.inCount = s.input.bytes.length) :
    (s.supply c).input.bytes[(s.supply c).inCount]? = some c := by
  rw [State.supply_of_not_ended c h]
  simp [hn]

theorem State.inCount_supply (s : State) (c : Byte) : (s.supply c).inCount = s.inCount := by
  by_cases h : s.input.ended <;> simp [State.supply, h]

end Sys2Proof.Machine

namespace Sys2Proof.Proofs

open Sys2Proof Sys2Proof.Machine

/-- Settles O50, by the test of all 16 bits: up to 255 `out` replaces `pc` and appends to the output
alone, and above it ends in a fault of `Execute`. -/
theorem outEmitsTheByteOrFaults : Obligations.OutEmitsTheByteOrFaults := by
  intro s a
  constructor
  · intro ha
    exact ⟨_, _, exec_out_of_le ha, rfl, toNat_setWidth_of_le_charMax ha, rfl,
      .of_eq rfl rfl rfl rfl, rfl, rfl, rfl⟩
  · intro ha
    exact ⟨_, exec_out_of_gt ha, rfl, rfl, s.fail_keepsData _ _ _⟩

/-- Settles O51, by the slot: the byte goes to the register as the result of any instruction does,
or to the cell, which is in bounds. -/
theorem inWritesTheNextByteToItsSlot : Obligations.InWritesTheNextByteToItsSlot := by
  intro s c hc
  have hchar := State.inChar_of_some hc
  constructor
  · intro r
    refine ⟨_, exec_inp_reg_of_char r hchar, ?_, (s.writeBack_onlyWritesReg 2 r _).rest.consume,
      rfl, rfl, rfl, rfl, rfl⟩
    rw [State.reg_consume, State.reg_writeBack_same, byte_setWidth_toNat]
  · intro m hm
    refine ⟨_, exec_inp_mem_of_char hchar (Nat.lt_succ_of_le hm), ?_,
      (KeepsBut.of_advance ((s.advance 2).setMem_keepsBut _ _)).consume, rfl, rfl, rfl, rfl, rfl⟩
    rw [State.mem_consume, State.mem_setMem, Memory.get_set_same, byte_setWidth_toNat]

/-- Settles O52: the answer to the request is the end of the stream. -/
theorem inAtTheEndOfInputEndsTheRun : Obligations.InAtTheEndOfInputEndsTheRun := by
  intro s d hend hn
  have heof : s.inChar = .eof := by rw [State.inChar_of_none hn, if_pos hend]
  exact ⟨_, exec_inp_of_eof d heof, rfl, rfl, s.haltFor_keepsData _ _⟩

/-- Settles O53: the answer is awaited, and each act of the environment gives `in` what O51,
respectively O52, asks for. -/
theorem inWaitsUntilTheEnvironmentAnswers : Obligations.InWaitsUntilTheEnvironmentAnswers := by
  intro s hend hn
  refine ⟨fun d => ?_, fun r c => ?_, fun d => ?_⟩
  · have hwait : s.inChar = .waiting := by
      rw [State.inChar_of_none hn.ge, if_neg (by simp [hend])]
    exact exec_inp_of_waiting d hwait
  · obtain ⟨hreg, -⟩ :=
      inWritesTheNextByteToItsSlot (s.supply c) c (State.supply_bytes_getElem? c hend hn)
    obtain ⟨u, hx, hval, -, hcount, -⟩ := hreg r
    exact ⟨u, hx, hval, by rw [hcount, State.inCount_supply]⟩
  · obtain ⟨u, hx, hrun, -, -⟩ := inAtTheEndOfInputEndsTheRun s.endInput d rfl hn.ge
    exact ⟨u, hx, hrun⟩

end Sys2Proof.Proofs
end

section
/-! SUPPORT. The input has no part in any instruction but `in` (R40, R192). -/

namespace Sys2Proof.Machine

open Sys2Proof

/-- The state with another input stream (R192). -/
def State.withInput (s : State) (input : InputStream) : State := { s with input := input }

/-- Where both states take the same branch, the two answers are compared by its next state. -/
theorem mapNext_eq_of_next {f : State → State} {i : Instr} {s s' u : State}
    (h : exec i s = .next u) (h' : exec i s' = .next (f u)) :
    exec i s' = mapNext f (exec i s) := by
  rw [h, h', mapNext]

/-- Every instruction but `in` does the same whatever the input is: what decides its branch is not
the input, and neither is what the branch writes (R192). -/
theorem exec_withInput {i : Instr} (s : State) (input : InputStream) (hi : ∀ d, i ≠ .inp d) :
    exec i (s.withInput input) = mapNext (·.withInput input) (exec i s) := by
  cases i with
  | inp d => exact absurd rfl (hi d)
  | jt a b => exact mapNext_eq_of_next (exec_jt a b s) (exec_jt a b _)
  | jf a b => exact mapNext_eq_of_next (exec_jf a b s) (exec_jf a b _)
  | mod r a b =>
    by_cases hb : s.value b = 0
    · exact mapNext_eq_of_next (exec_mod_of_zero r a hb) (exec_mod_of_zero r a hb)
    · exact mapNext_eq_of_next (exec_mod_of_ne_zero r a hb) (exec_mod_of_ne_zero r a hb)
  | push a =>
    by_cases hf : s.cfg.stackDepth = some s.stack.length
    · exact mapNext_eq_of_next (exec_push_of_full a hf) (exec_push_of_full a hf)
    · exact mapNext_eq_of_next (exec_push_of_not_full a hf) (exec_push_of_not_full a hf)
  | call a =>
    by_cases hf : s.cfg.stackDepth = some s.stack.length
    · exact mapNext_eq_of_next (exec_call_of_full a hf) (exec_call_of_full a hf)
    · exact mapNext_eq_of_next (exec_call_of_not_full a hf) (exec_call_of_not_full a hf)
  | pop r =>
    cases hs : s.stack with
    | nil => exact mapNext_eq_of_next (exec_pop_of_nil r hs) (exec_pop_of_nil r hs)
    | cons v rest => exact mapNext_eq_of_next (exec_pop_of_cons r hs) (exec_pop_of_cons r hs)
  | ret =>
    cases hs : s.stack with
    | nil => exact mapNext_eq_of_next (exec_ret_of_nil hs) (exec_ret_of_nil hs)
    | cons v rest => exact mapNext_eq_of_next (exec_ret_of_cons hs) (exec_ret_of_cons hs)
  | rmem r a =>
    by_cases ha : (s.value a).toNat < memCells
    · exact mapNext_eq_of_next (exec_rmem_of_lt r ha) (exec_rmem_of_lt r ha)
    · exact mapNext_eq_of_next (exec_rmem_of_not_lt r ha) (exec_rmem_of_not_lt r ha)
  | wmem a b =>
    by_cases ha : (s.value a).toNat < memCells
    · exact mapNext_eq_of_next (exec_wmem_of_lt b ha) (exec_wmem_of_lt b ha)
    · exact mapNext_eq_of_next (exec_wmem_of_not_lt b ha) (exec_wmem_of_not_lt b ha)
  | out a =>
    by_cases ha : charMax < (s.value a).toNat
    · exact mapNext_eq_of_next (exec_out_of_gt ha) (exec_out_of_gt ha)
    · have hle := Nat.le_of_not_lt ha
      exact mapNext_eq_of_next (exec_out_of_le hle) (exec_out_of_le hle)
  | _ => rfl

/-- No instruction but `in` consumes input (R40). -/
theorem Effect.inCount_eq {s t : State} {i : Instr} (he : Effect s i t) (hi : ∀ d, i ≠ .inp d) :
    t.inCount = s.inCount := by
  cases he with
  | readToReg r => exact absurd rfl (hi _)
  | readToMem a => exact absurd rfl (hi _)
  | _ => rfl

theorem State.raiseReject_withInput (s : State) (input : InputStream) (r : Reject) :
    (s.withInput input).raiseReject r = (s.raiseReject r).withInput input := by
  cases r <;> rfl

end Sys2Proof.Machine

namespace Sys2Proof.Proofs

open Sys2Proof Sys2Proof.Machine

/-- Settles O27: neither the words at `pc` nor the fault of a rejection depend on the input, and of
the instructions only `in` does. -/
theorem onlyInReadsTheInput : Obligations.OnlyInReadsTheInput := by
  intro s t input h hin
  change _ ∧ step (s.withInput input) = .next (t.withInput input)
  obtain ⟨hr, ⟨i, rest, hd, hx⟩ | ⟨r, hd, rfl⟩⟩ := step_eq_next h
  · have hi : ∀ d, i ≠ .inp d := fun d e => hin d rest (e ▸ hd)
    refine ⟨(exec_effect hx).inCount_eq hi, ?_⟩
    rw [step_of_decode (s := s.withInput input) hr hd, exec_withInput s input hi, hx]
    rfl
  · refine ⟨(s.raiseReject_keepsData r).inCount, ?_⟩
    rw [step_of_reject (s := s.withInput input) hr hd, State.raiseReject_withInput]

end Sys2Proof.Proofs
end

section
/-! SUPPORT. The only way into FAULTED, and what the environment then reads (R38, R220, R257). -/

namespace Sys2Proof.Machine

open Sys2Proof

/-- The environment reads FAULTED where the run state holds a fault record (R38). -/
theorem State.run_of_status_faulted {t : State} (h : t.status.kind = .faulted) :
    ∃ e info A, t.run = .faulted e info A := by
  cases hr : t.run with
  | faulted e info A => exact ⟨e, info, A, rfl⟩
  | running | halted => simp [State.status, hr] at h

/-- Of the effects of an instruction, one alone ends in FAULTED (R220). -/
theorem Effect.eq_fail {s t : State} {i : Instr} {e : Cause} {info A : Word} (he : Effect s i t)
    (hs : s.run = .running) (ht : t.run = .faulted e info A) :
    t = s.fail (encode i).length e info := by
  cases he with
  | faulted =>
    cases ht
    rfl
  | halted | retEnded | inputEnded => cases ht
  | _ => exact absurd (hs.symm.trans ht) (by simp)

/-- A step that ends in FAULTED, whether in `Execute` or before it, is the advance of `pc` over the
words fetched and the fault record, whose `fault_pc` is the `pc` the step began at (R220). -/
theorem step_eq_fail {s t : State} {e : Cause} {info A : Word} (h : step s = .next t)
    (ht : t.run = .faulted e info A) : ∃ n, t = s.fail n e info := by
  obtain ⟨hs, ⟨i, -, -, he⟩ | ⟨n, _, _, rfl⟩⟩ := step_effect h
  · exact ⟨_, he.eq_fail hs ht⟩
  · cases ht
    exact ⟨n, rfl⟩

end Sys2Proof.Machine

namespace Sys2Proof.Proofs

open Sys2Proof Sys2Proof.Machine

/-- Settles O18: every step into FAULTED is a `fail`, which keeps the data state. -/
theorem faultsArePrecise : Obligations.FaultsArePrecise := by
  intro s t h hkind
  obtain ⟨e, info, A, hrun⟩ := State.run_of_status_faulted hkind
  obtain ⟨n, rfl⟩ := step_eq_fail h hrun
  exact ⟨s.fail_keepsData n e info, rfl⟩

end Sys2Proof.Proofs
end

section
/-! SUPPORT. Reset, the pairs of bytes of an image file, and the loader (R250 to R255). -/

namespace Sys2Proof.Machine

open Sys2Proof

/-! ### Reset (R43, R250) -/

theorem State.reg_resetWith (img : List Word) (input : InputStream) (cfg : Config) (i : Reg) :
    (State.resetWith img input cfg).reg i = 0 :=
  Vector.getElem_replicate i.isLt

/-- A cell holds the word of the image at its address, and 0 where the image has none (R252). -/
theorem State.mem_get_resetWith (img : List Word) (input : InputStream) (cfg : Config) (a : Nat) :
    (State.resetWith img input cfg).mem.get a = (img[a]?).getD 0 := by
  have h := Memory.get_fromWords img 0 a
  rw [Nat.zero_add] at h
  exact h

/-! ### Pairs of bytes (R253) -/

/-- The first two bytes are one word, the low byte first, and the others are read alike. -/
theorem wordsOfBytes_cons_cons (lo hi : Byte) (rest : List Byte) :
    wordsOfBytes (lo :: hi :: rest) =
      (wordsOfBytes rest).map (BitVec.ofNat 16 (lo.toNat + 256 * hi.toNat) :: ·) := by
  rw [wordsOfBytes]
  cases wordsOfBytes rest <;> rfl

/-- Two bytes fit in a word, so the word is the number they write (R253). -/
theorem toNat_word_of_bytes (lo hi : Byte) :
    (BitVec.ofNat 16 (lo.toNat + 256 * hi.toNat)).toNat = lo.toNat + 256 * hi.toNat := by
  rw [BitVec.toNat_ofNat]
  exact Nat.mod_eq_of_lt (by omega)

/-- The bytes of an even file are pairs throughout. -/
theorem exists_wordsOfBytes_of_even : ∀ bs : List Byte, bs.length % 2 = 0 →
    ∃ ws, wordsOfBytes bs = some ws
  | [], _ => ⟨[], rfl⟩
  | [_], h => absurd h (by simp)
  | lo :: hi :: rest, h => by
    have heven : rest.length % 2 = 0 := by
      simp only [List.length_cons] at h
      omega
    obtain ⟨ws, hws⟩ := exists_wordsOfBytes_of_even rest heven
    exact ⟨_, by rw [wordsOfBytes_cons_cons, hws, Option.map_some]⟩

/-- Each word takes two bytes. -/
theorem length_of_wordsOfBytes : ∀ {bs : List Byte} {ws : List Word}, wordsOfBytes bs = some ws →
    bs.length = 2 * ws.length
  | [], _, h => by
    cases h
    rfl
  | lo :: hi :: rest, _, h => by
    rw [wordsOfBytes_cons_cons] at h
    obtain ⟨ws, hws, rfl⟩ := Option.map_eq_some_iff.1 h
    simp only [List.length_cons, length_of_wordsOfBytes hws]
    omega

theorem wordsOfBytes_of_odd {bs : List Byte} (h : bs.length % 2 = 1) : wordsOfBytes bs = none :=
  Option.eq_none_iff_forall_ne_some.2 fun ws hws => by
    have := length_of_wordsOfBytes hws
    omega

/-- Word `k` is the pair of bytes `2k` and `2k + 1`, the low byte first (R253). -/
theorem getElem?_of_wordsOfBytes : ∀ {bs : List Byte} {ws : List Word}, wordsOfBytes bs = some ws →
    ∀ k w, ws[k]? = some w →
      ∃ lo hi, bs[2 * k]? = some lo ∧ bs[2 * k + 1]? = some hi ∧
        w.toNat = lo.toNat + 256 * hi.toNat
  | [], _, h, k, w, hw => by
    cases h
    cases hw
  | lo :: hi :: rest, _, h, k, w, hw => by
    rw [wordsOfBytes_cons_cons] at h
    obtain ⟨ws, hws, rfl⟩ := Option.map_eq_some_iff.1 h
    cases k with
    | zero =>
      cases hw
      exact ⟨lo, hi, rfl, rfl, toNat_word_of_bytes lo hi⟩
    | succ k => exact getElem?_of_wordsOfBytes hws k w hw

/-! ### The loader (R254, R255) -/

theorem loadImage_of_odd {bs : List Byte} (h : bs.length % 2 = 1) :
    loadImage (some bs) = .error .oddLength := by
  simp only [loadImage, wordsOfBytes_of_odd h]

theorem loadImage_of_words {bs : List Byte} {ws : List Word} (h : wordsOfBytes bs = some ws) :
    loadImage (some bs) = if ws.length ≤ memCells then .ok ws else .error .tooLong := by
  simp only [loadImage, h]

/-- An even file is read as half as many words, and their number decides. -/
theorem loadImage_of_even {bs : List Byte} (h : bs.length % 2 = 0) :
    ∃ ws, bs.length = 2 * ws.length ∧
      loadImage (some bs) = if ws.length ≤ memCells then .ok ws else .error .tooLong :=
  let ⟨ws, hws⟩ := exists_wordsOfBytes_of_even bs h
  ⟨ws, length_of_wordsOfBytes hws, loadImage_of_words hws⟩

/-- A file that is taken is read as words. -/
theorem wordsOfBytes_of_loadImage {bs : List Byte} {ws : List Word}
    (h : loadImage (some bs) = .ok ws) : wordsOfBytes bs = some ws := by
  cases hb : wordsOfBytes bs with
  | none => simp [loadImage, hb] at h
  | some us =>
    rw [loadImage_of_words hb] at h
    by_cases hlen : us.length ≤ memCells
    · rw [if_pos hlen] at h
      cases h
      rfl
    · simp [hlen] at h

theorem State.boot_of_ok {file : Option (List Byte)} {img : List Word} (input : InputStream)
    (cfg : Config) (h : loadImage file = .ok img) :
    State.boot file input cfg = .ok (State.resetWith img input cfg) := by
  simp only [State.boot, h]

theorem State.boot_of_error {file : Option (List Byte)} {e : LoadError} (input : InputStream)
    (cfg : Config) (h : loadImage file = .error e) : State.boot file input cfg = .error e := by
  simp only [State.boot, h]

end Sys2Proof.Machine

namespace Sys2Proof.Proofs

open Sys2Proof Sys2Proof.Machine

/-- Settles O1, by the read of a cell after the image is placed; every field but the memory and the
two parameters of the run is that of `State.reset`. -/
theorem resetGivesTheTableOfInitialValues : Obligations.ResetGivesTheTableOfInitialValues := by
  intro img input cfg _
  refine ⟨State.reg_resetWith img input cfg, rfl, rfl, fun a ha => ?_, fun a ha => ?_,
    rfl, rfl, rfl, rfl, rfl⟩
  · rw [State.mem_get_resetWith, List.getElem?_eq_getElem ha, Option.getD_some]
  · rw [State.mem_get_resetWith, List.getElem?_eq_none ha, Option.getD_none]

/-- Settles O2: the loader changes none of the words it reads. -/
theorem loaderReadsLittleEndianWords : Obligations.LoaderReadsLittleEndianWords := by
  intro bs ws h
  have hws := wordsOfBytes_of_loadImage h
  exact ⟨length_of_wordsOfBytes hws, getElem?_of_wordsOfBytes hws⟩

/-- Settles O3: an even file is read as half as many words, so the loader's bound on the words is
the statement's bound on the bytes. -/
theorem loaderRefusesWhatIsNoImage : Obligations.LoaderRefusesWhatIsNoImage := by
  intro bs input cfg
  refine ⟨State.boot_of_error input cfg rfl,
    fun hodd => State.boot_of_error input cfg (loadImage_of_odd hodd), fun heven hlong => ?_,
    fun heven hshort => ?_⟩
  · obtain ⟨ws, hbytes, hload⟩ := loadImage_of_even heven
    have hlen : ¬ws.length ≤ memCells := by omega
    rw [if_neg hlen] at hload
    exact State.boot_of_error input cfg hload
  · obtain ⟨ws, hbytes, hload⟩ := loadImage_of_even heven
    have hlen : ws.length ≤ memCells := by omega
    rw [if_pos hlen] at hload
    exact ⟨ws, hlen, hload, State.boot_of_ok input cfg hload⟩

end Sys2Proof.Proofs
end
